-- ==== Sys2Proof/Word.lean ====
section
/-! DEFINITION. The widths of the machine (spec/00_scope.md R6, R7): bytes, 16-bit words, 12-bit address fields and
register indices. Every value is unsigned; nothing is ever sign-extended (R7). -/

namespace Sys2Proof

/-- An 8-bit register, timer or memory byte (10_state.md R20, R25, R26). -/
abbrev Byte := BitVec 8

/-- A 16-bit value: an instruction word, `I`, `pc`, a stack slot (10_state.md R22 to R24; the width of `pc` is log 3,
that of a slot log 11). -/
abbrev Word := BitVec 16

/-- The instruction field NNN (30_encoding.md R71). -/
abbrev Addr12 := BitVec 12

/-- A register index or keypad slot, always 0..15 (10_state.md R20, R29). -/
abbrev RegIdx := Fin 16

/-- `zext_16(v)` (00_scope.md R8). -/
abbrev zext16 {n : Nat} (v : BitVec n) : Word := v.setWidth 16

/-- A register index or key index as an 8-bit value (40_cycle_dispatch.md R93). -/
abbrev byteOfIdx (k : RegIdx) : Byte := BitVec.ofNat 8 k.val

end Sys2Proof
end

