-- ==== Sys2Proof/Config.lean ====
section
/-! DEFINITION. The parameters of the machine (spec/00_scope.md R6): what this hardware fixes, and the one free value,
the random byte (60_exceptions.md R185). The counts 16 (registers, stack slots, keys), 32 and 64 (rows, columns) are
also the bounds of the types in Machine/State.lean. -/

namespace Sys2Proof.Config

/-- `MEM_SIZE` (00_scope.md R6): addresses 0x000 to 0xFFF. -/
abbrev memSize : Nat := 4096

/-- `PROGRAM_START` (00_scope.md R6): where `load` puts the first byte. -/
abbrev programStart : Nat := 0x200

/-- `ROM_MAX` (00_scope.md R6): 4096 − 0x200. -/
abbrev romMax : Nat := 3584

/-- `FONT_BASE` (00_scope.md R6). -/
abbrev fontBase : Nat := 0x000

/-- `PC_RESET` (00_scope.md R6; the spec's decision D4, log 3). -/
abbrev pcReset : Word := 0x200

/-- `FLAG_REG` (00_scope.md R6): `VF`. -/
abbrev flagReg : RegIdx := 15

/-- `STACK_DEPTH` (00_scope.md R6). -/
abbrev stackDepth : Nat := 16

/-- `WIDTH` (00_scope.md R6): columns of the framebuffer. -/
abbrev width : Nat := 64

/-- `HEIGHT` (00_scope.md R6): rows of the framebuffer. -/
abbrev height : Nat := 32

/-- `ADD_I_BOUND` (00_scope.md R6, 43_index_memory.md R141; log 6). -/
abbrev addIBound : Nat := 0x0F00

/-- `INSTR_BYTES` (00_scope.md R6, 30_encoding.md R70). -/
abbrev instrBytes : Nat := 2

/-- `FONT`, digits 0 to 7 (20_memory.md R57). PRESUMED: the default value the spec takes from general knowledge
(its decision D11, log 10). -/
def fontLow : List Byte :=
  [0xF0, 0x90, 0x90, 0x90, 0xF0] ++
  [0x20, 0x60, 0x20, 0x20, 0x70] ++
  [0xF0, 0x10, 0xF0, 0x80, 0xF0] ++
  [0xF0, 0x10, 0xF0, 0x10, 0xF0] ++
  [0x90, 0x90, 0xF0, 0x10, 0x10] ++
  [0xF0, 0x80, 0xF0, 0x10, 0xF0] ++
  [0xF0, 0x80, 0xF0, 0x90, 0xF0] ++
  [0xF0, 0x10, 0x20, 0x40, 0x40]

/-- `FONT`, digits 8 to F (20_memory.md R57; log 10). -/
def fontHigh : List Byte :=
  [0xF0, 0x90, 0xF0, 0x90, 0xF0] ++
  [0xF0, 0x90, 0xF0, 0x10, 0xF0] ++
  [0xF0, 0x90, 0xF0, 0x90, 0x90] ++
  [0xE0, 0x90, 0xE0, 0x90, 0xE0] ++
  [0xF0, 0x80, 0x80, 0x80, 0xF0] ++
  [0xE0, 0x90, 0x90, 0x90, 0xE0] ++
  [0xF0, 0x80, 0xF0, 0x80, 0xF0] ++
  [0xF0, 0x80, 0xF0, 0x80, 0x80]

/-- `FONT`: 16 glyphs of 5 bytes, 80 bytes in all (20_memory.md R57; log 10). -/
def font : List Byte := fontLow ++ fontHigh

/-- The random source (60_exceptions.md R185): the byte it supplies to the `k`-th draw. A FREE VALUE with no body:
no claim can rest on what it is (log 17). -/
opaque randomByte : Nat → Byte

end Sys2Proof.Config
end

