-- ==== Sys2Proof/Syntax.lean ====
section
/-! DEFINITION. The instructions: one constructor per row of spec/opcode_table.json, in the order of
30_encoding.md R75, with the operands R74 gives the row's format. -/

namespace Sys2Proof

/-- The 34 instructions of 30_encoding.md R75. `nn` and `nnn` are fields of the word; the row count `n` of `draw` is a
count, bounded in WellFormed.lean; `shr` and `shl` have no second operand (R78). -/
inductive Instr where
  | clearScreen
  | ret
  | jump (nnn : Addr12)
  | call (nnn : Addr12)
  | skipEqImm (x : RegIdx) (nn : Byte)
  | skipNeImm (x : RegIdx) (nn : Byte)
  | skipEqReg (x y : RegIdx)
  | loadImm (x : RegIdx) (nn : Byte)
  | addImm (x : RegIdx) (nn : Byte)
  | move (x y : RegIdx)
  | or (x y : RegIdx)
  | and (x y : RegIdx)
  | xor (x y : RegIdx)
  | add (x y : RegIdx)
  | sub (x y : RegIdx)
  | shr (x : RegIdx)
  | subn (x y : RegIdx)
  | shl (x : RegIdx)
  | skipNeReg (x y : RegIdx)
  | loadI (nnn : Addr12)
  | jumpOffset (nnn : Addr12)
  | rand (x : RegIdx) (nn : Byte)
  | draw (x y : RegIdx) (n : Nat)
  | skipKey (x : RegIdx)
  | skipNokey (x : RegIdx)
  | loadDt (x : RegIdx)
  | waitKey (x : RegIdx)
  | setDt (x : RegIdx)
  | setSt (x : RegIdx)
  | addI (x : RegIdx)
  | fontAddr (x : RegIdx)
  | bcd (x : RegIdx)
  | storeRegs (x : RegIdx)
  | loadRegs (x : RegIdx)
  deriving DecidableEq, Repr

/-- The name of the operation (30_encoding.md R75, column "name"; spec/opcode_table.json, "mnemonic"). -/
def Instr.mnemonic : Instr → String
  | .clearScreen => "clear-screen"
  | .ret => "return"
  | .jump _ => "jump"
  | .call _ => "call"
  | .skipEqImm _ _ => "skip-eq-imm"
  | .skipNeImm _ _ => "skip-ne-imm"
  | .skipEqReg _ _ => "skip-eq-reg"
  | .loadImm _ _ => "load-imm"
  | .addImm _ _ => "add-imm"
  | .move _ _ => "move"
  | .or _ _ => "or"
  | .and _ _ => "and"
  | .xor _ _ => "xor"
  | .add _ _ => "add"
  | .sub _ _ => "sub"
  | .shr _ => "shr"
  | .subn _ _ => "subn"
  | .shl _ => "shl"
  | .skipNeReg _ _ => "skip-ne-reg"
  | .loadI _ => "load-i"
  | .jumpOffset _ => "jump-offset"
  | .rand _ _ => "rand"
  | .draw _ _ _ => "draw"
  | .skipKey _ => "skip-key"
  | .skipNokey _ => "skip-nokey"
  | .loadDt _ => "load-dt"
  | .waitKey _ => "wait-key"
  | .setDt _ => "set-dt"
  | .setSt _ => "set-st"
  | .addI _ => "add-i"
  | .fontAddr _ => "font-addr"
  | .bcd _ => "bcd"
  | .storeRegs _ => "store-regs"
  | .loadRegs _ => "load-regs"

end Sys2Proof
end

