-- ==== Sys2Proof/WellFormed.lean ====
section
/-! DEFINITION. Which instructions the encoding admits. Register indices and the fields NN and NNN are in range by
their types (30_encoding.md R73); the one operand held as a count, the row count of `draw`, is checked here. -/

namespace Sys2Proof

/-- The row count N is a 4-bit field, 0..15 (30_encoding.md R72, R73). -/
abbrev rowCountFits (n : Nat) : Prop := n < 16

/-- The instruction can be encoded in a 16-bit word of 30_encoding.md R74. -/
def Instr.wellFormed : Instr → Bool
  | .draw _ _ n => decide (rowCountFits n)
  | .clearScreen | .ret | .jump _ | .call _ | .skipEqImm _ _ | .skipNeImm _ _ | .skipEqReg _ _ | .loadImm _ _
  | .addImm _ _ | .move _ _ | .or _ _ | .and _ _ | .xor _ _ | .add _ _ | .sub _ _ | .shr _ | .subn _ _ | .shl _
  | .skipNeReg _ _ | .loadI _ | .jumpOffset _ | .rand _ _ | .skipKey _ | .skipNokey _ | .loadDt _ | .waitKey _
  | .setDt _ | .setSt _ | .addI _ | .fontAddr _ | .bcd _ | .storeRegs _ | .loadRegs _ => true

end Sys2Proof
end

