-- ==== Sys2Proof/Decode.lean ====
section
/-! DEFINITION. The decoder (spec/30_encoding.md R70 to R79), total on any bytes and rejecting by name; the encoder,
written from the same formats (R74); and the opcode map itself (R75) as data. PRESUMED: the bit patterns of every
instruction but `clear-screen` are the spec's from general knowledge (its decision D1, log 1). -/

namespace Sys2Proof

/-! ## Fields (30_encoding.md R72) -/

/-- `OP = w[15:12]`. -/
def fieldOP (w : Word) : BitVec 4 := w.extractLsb' 12 4

/-- `X = w[11:8]`, a register index. -/
def fieldX (w : Word) : RegIdx := (w.extractLsb' 8 4).toFin

/-- `Y = w[7:4]`, a register index. -/
def fieldY (w : Word) : RegIdx := (w.extractLsb' 4 4).toFin

/-- `N = w[3:0]`. -/
def fieldN (w : Word) : BitVec 4 := w.extractLsb' 0 4

/-- `NN = w[7:0]`. -/
def fieldNN (w : Word) : Byte := w.extractLsb' 0 8

/-- `NNN = w[11:0]`. -/
def fieldNNN (w : Word) : Addr12 := w.extractLsb' 0 12

/-- `w = mem[pc] ++ mem[pc+1]`: the byte at the lower address is the high byte (20_memory.md R53). -/
def wordOfBytes (hi lo : Byte) : Word := hi ++ lo

/-- `w[15:8]`, the byte at the lower address (20_memory.md R53). -/
def highByte (w : Word) : Byte := w.extractLsb' 8 8

/-- `w[7:0]`, the byte at the higher address (20_memory.md R53). -/
def lowByte (w : Word) : Byte := w.extractLsb' 0 8

/-! ## Decoding (30_encoding.md R75 to R79) -/

/-- Why bytes are no instruction. `illegalOpcode`: the word matches no row of the opcode map (30_encoding.md R77).
`truncated`: fewer than the two bytes of an instruction (R70). -/
inductive DecodeReject where
  | illegalOpcode (w : Word)
  | truncated
  deriving DecidableEq, Repr

/-- `OP = 0`: the whole word is compared (30_encoding.md R76; log 2). -/
def decodeZ (w : Word) : Except DecodeReject Instr :=
  if w = 0x00E0 then .ok .clearScreen
  else if w = 0x00EE then .ok .ret
  else .error (.illegalOpcode w)

/-- `OP = 8`: the minor opcode is N (30_encoding.md R75, R76). -/
def decodeALU (w : Word) : Except DecodeReject Instr :=
  let x := fieldX w
  let y := fieldY w
  match fieldN w with
  | 0x0#4 => .ok (.move x y)
  | 0x1#4 => .ok (.or x y)
  | 0x2#4 => .ok (.and x y)
  | 0x3#4 => .ok (.xor x y)
  | 0x4#4 => .ok (.add x y)
  | 0x5#4 => .ok (.sub x y)
  | 0x6#4 => .ok (.shr x)
  | 0x7#4 => .ok (.subn x y)
  | 0xE#4 => .ok (.shl x)
  | _ => .error (.illegalOpcode w)

/-- `OP = 5` and `OP = 9`: N must be 0 (30_encoding.md R76; log 2). -/
def decodeN0 (i : Instr) (w : Word) : Except DecodeReject Instr :=
  if fieldN w = 0 then .ok i else .error (.illegalOpcode w)

/-- `OP = 0xE`: the minor opcode is NN (30_encoding.md R75, R76). -/
def decodeKey (w : Word) : Except DecodeReject Instr :=
  let x := fieldX w
  match fieldNN w with
  | 0x9E#8 => .ok (.skipKey x)
  | 0xA1#8 => .ok (.skipNokey x)
  | _ => .error (.illegalOpcode w)

/-- `OP = 0xF`: the minor opcode is NN (30_encoding.md R75, R76). -/
def decodeMisc (w : Word) : Except DecodeReject Instr :=
  let x := fieldX w
  match fieldNN w with
  | 0x07#8 => .ok (.loadDt x)
  | 0x0A#8 => .ok (.waitKey x)
  | 0x15#8 => .ok (.setDt x)
  | 0x18#8 => .ok (.setSt x)
  | 0x1E#8 => .ok (.addI x)
  | 0x29#8 => .ok (.fontAddr x)
  | 0x33#8 => .ok (.bcd x)
  | 0x55#8 => .ok (.storeRegs x)
  | 0x65#8 => .ok (.loadRegs x)
  | _ => .error (.illegalOpcode w)

/-- Decode a word: switch on OP, every case not listed is illegal (30_encoding.md R76, R77). -/
def decode (w : Word) : Except DecodeReject Instr :=
  match fieldOP w with
  | 0x0#4 => decodeZ w
  | 0x1#4 => .ok (.jump (fieldNNN w))
  | 0x2#4 => .ok (.call (fieldNNN w))
  | 0x3#4 => .ok (.skipEqImm (fieldX w) (fieldNN w))
  | 0x4#4 => .ok (.skipNeImm (fieldX w) (fieldNN w))
  | 0x5#4 => decodeN0 (.skipEqReg (fieldX w) (fieldY w)) w
  | 0x6#4 => .ok (.loadImm (fieldX w) (fieldNN w))
  | 0x7#4 => .ok (.addImm (fieldX w) (fieldNN w))
  | 0x8#4 => decodeALU w
  | 0x9#4 => decodeN0 (.skipNeReg (fieldX w) (fieldY w)) w
  | 0xA#4 => .ok (.loadI (fieldNNN w))
  | 0xB#4 => .ok (.jumpOffset (fieldNNN w))
  | 0xC#4 => .ok (.rand (fieldX w) (fieldNN w))
  | 0xD#4 => .ok (.draw (fieldX w) (fieldY w) (fieldN w).toNat)
  | 0xE#4 => decodeKey w
  | 0xF#4 => decodeMisc w
  | _ => .error (.illegalOpcode w)

/-- Decode the first instruction of a byte sequence, lower address first; answers it with the bytes after it
(30_encoding.md R70, 20_memory.md R53). -/
def decodeBytes : List Byte → Except DecodeReject (Instr × List Byte)
  | hi :: lo :: rest =>
    match decode (wordOfBytes hi lo) with
    | .ok i => .ok (i, rest)
    | .error e => .error e
  | [_] => .error .truncated
  | [] => .error .truncated

/-! ## Encoding (30_encoding.md R74, R75) -/

/-- A register index as the 4 bits of its field. -/
def idxBits (x : RegIdx) : BitVec 4 := BitVec.ofFin x

/-- Format A: `OP aaaa aaaa aaaa`. -/
def encA (op : BitVec 4) (nnn : Addr12) : Word := op ++ nnn

/-- Format XK: `OP xxxx kkkk kkkk`; with a minor opcode for the low byte also format XM. -/
def encXK (op : BitVec 4) (x : RegIdx) (nn : Byte) : Word := op ++ idxBits x ++ nn

/-- Formats XY and XYN: `OP xxxx yyyy nnnn`, the low nibble a minor opcode or N. -/
def encXYN (op : BitVec 4) (x y : RegIdx) (n : BitVec 4) : Word := op ++ idxBits x ++ idxBits y ++ n

/-- The word of an instruction (30_encoding.md R75). The ignored field of `shr` and `shl` is assembled as 0 (R81;
log 23); a row count above 15, which no well-formed `draw` has, loses its high bits. -/
def encode : Instr → Word
  | .clearScreen => 0x00E0
  | .ret => 0x00EE
  | .jump nnn => encA 0x1 nnn
  | .call nnn => encA 0x2 nnn
  | .skipEqImm x nn => encXK 0x3 x nn
  | .skipNeImm x nn => encXK 0x4 x nn
  | .skipEqReg x y => encXYN 0x5 x y 0x0
  | .loadImm x nn => encXK 0x6 x nn
  | .addImm x nn => encXK 0x7 x nn
  | .move x y => encXYN 0x8 x y 0x0
  | .or x y => encXYN 0x8 x y 0x1
  | .and x y => encXYN 0x8 x y 0x2
  | .xor x y => encXYN 0x8 x y 0x3
  | .add x y => encXYN 0x8 x y 0x4
  | .sub x y => encXYN 0x8 x y 0x5
  | .shr x => encXYN 0x8 x 0 0x6
  | .subn x y => encXYN 0x8 x y 0x7
  | .shl x => encXYN 0x8 x 0 0xE
  | .skipNeReg x y => encXYN 0x9 x y 0x0
  | .loadI nnn => encA 0xA nnn
  | .jumpOffset nnn => encA 0xB nnn
  | .rand x nn => encXK 0xC x nn
  | .draw x y n => encXYN 0xD x y (BitVec.ofNat 4 n)
  | .skipKey x => encXK 0xE x 0x9E
  | .skipNokey x => encXK 0xE x 0xA1
  | .loadDt x => encXK 0xF x 0x07
  | .waitKey x => encXK 0xF x 0x0A
  | .setDt x => encXK 0xF x 0x15
  | .setSt x => encXK 0xF x 0x18
  | .addI x => encXK 0xF x 0x1E
  | .fontAddr x => encXK 0xF x 0x29
  | .bcd x => encXK 0xF x 0x33
  | .storeRegs x => encXK 0xF x 0x55
  | .loadRegs x => encXK 0xF x 0x65

/-- The two bytes of an instruction, lower address first (20_memory.md R53). -/
def encodeBytes (i : Instr) : List Byte := [highByte (encode i), lowByte (encode i)]

/-! ## The opcode map as data (30_encoding.md R75) -/

/-- A row of the opcode map: a word selects it when `w & mask = pattern`. -/
structure OpcodeRow where
  mnemonic : String
  pattern : Word
  mask : Word
  deriving DecidableEq, Repr

/-- Rows 1 to 18 of 30_encoding.md R75. -/
def opcodeRowsLow : List OpcodeRow :=
  [⟨"clear-screen", 0x00E0, 0xFFFF⟩, ⟨"return", 0x00EE, 0xFFFF⟩, ⟨"jump", 0x1000, 0xF000⟩,
   ⟨"call", 0x2000, 0xF000⟩, ⟨"skip-eq-imm", 0x3000, 0xF000⟩, ⟨"skip-ne-imm", 0x4000, 0xF000⟩,
   ⟨"skip-eq-reg", 0x5000, 0xF00F⟩, ⟨"load-imm", 0x6000, 0xF000⟩, ⟨"add-imm", 0x7000, 0xF000⟩] ++
  [⟨"move", 0x8000, 0xF00F⟩, ⟨"or", 0x8001, 0xF00F⟩, ⟨"and", 0x8002, 0xF00F⟩, ⟨"xor", 0x8003, 0xF00F⟩,
   ⟨"add", 0x8004, 0xF00F⟩, ⟨"sub", 0x8005, 0xF00F⟩, ⟨"shr", 0x8006, 0xF00F⟩, ⟨"subn", 0x8007, 0xF00F⟩,
   ⟨"shl", 0x800E, 0xF00F⟩]

/-- Rows 19 to 34 of 30_encoding.md R75. -/
def opcodeRowsHigh : List OpcodeRow :=
  [⟨"skip-ne-reg", 0x9000, 0xF00F⟩, ⟨"load-i", 0xA000, 0xF000⟩, ⟨"jump-offset", 0xB000, 0xF000⟩,
   ⟨"rand", 0xC000, 0xF000⟩, ⟨"draw", 0xD000, 0xF000⟩, ⟨"skip-key", 0xE09E, 0xF0FF⟩,
   ⟨"skip-nokey", 0xE0A1, 0xF0FF⟩] ++
  [⟨"load-dt", 0xF007, 0xF0FF⟩, ⟨"wait-key", 0xF00A, 0xF0FF⟩, ⟨"set-dt", 0xF015, 0xF0FF⟩,
   ⟨"set-st", 0xF018, 0xF0FF⟩, ⟨"add-i", 0xF01E, 0xF0FF⟩, ⟨"font-addr", 0xF029, 0xF0FF⟩,
   ⟨"bcd", 0xF033, 0xF0FF⟩, ⟨"store-regs", 0xF055, 0xF0FF⟩, ⟨"load-regs", 0xF065, 0xF0FF⟩]

/-- The opcode map (30_encoding.md R75), the 34 rows in the spec's order. -/
def opcodeRows : List OpcodeRow := opcodeRowsLow ++ opcodeRowsHigh

/-- An instruction is selected when `(w & mask) = match` (30_encoding.md R75). -/
def OpcodeRow.selects (r : OpcodeRow) (w : Word) : Bool := (w &&& r.mask) == r.pattern

/-! ## The host's view of the decoder -/

/-- The instruction the decoder reads from an instruction whose bits are `w`, numbered as spec/opcode_table.json
numbers them: one 16-bit word, laid out high byte first. -/
def decodeTableWord (nbits w : Nat) : Option Instr :=
  let word : Word := BitVec.ofNat 16 (w % 2 ^ nbits)
  match decodeBytes [highByte word, lowByte word] with
  | .ok (i, _) => some i
  | .error _ => none

end Sys2Proof
end

