-- ==== Sys2Proof/Machine/State.lean ====
section
/-! DEFINITION. The state of the machine (spec/10_state.md R20 to R32) as plain data, the conditions that end a step
(60_exceptions.md R170), and the state after `new()` (10_state.md R35). -/

namespace Sys2Proof.Machine

/-- The error conditions of a step and what each records (60_exceptions.md R170; log 26). One of these is latched in
`State.fault` by the step that raises it, whose outcome is the next state; every later step stops with the latched
condition as its outcome (40_cycle_dispatch.md R91; log 12). `RomTooLarge` is a result of `load`, never of a step
(R174): see `LoadResult`. -/
inductive Fault where
  /-- Raised by `call` at depth 16 (60_exceptions.md R171); records the `pc` of the call. Safe: it is the source's own
  condition, and the machine stops. -/
  | stackOverflow (pc : Word)
  /-- Raised by `return` with an empty stack (60_exceptions.md R172); records the `pc` of the return. Safe: it is the
  source's own condition, and the machine stops. -/
  | stackUnderflow (pc : Word)
  /-- Raised by the step that fetches a word matching no row (60_exceptions.md R173); records `pc` and the word. Safe:
  the strict matching makes more words stop (log 2). -/
  | illegalOpcode (pc : Word) (word : Word)
  /-- Raised by the fetch, `draw`, `bcd`, `store-regs`, `load-regs` for an address above 0xFFF (60_exceptions.md R175);
  records `pc` and the first address out of range. Safe: the machine stops where the source is silent (log 4). -/
  | addressOutOfRange (pc : Word) (addr : Nat)
  /-- Raised by `skip-key` and `skip-nokey` when the index is above 15 (60_exceptions.md R176); records `pc` and the
  index. Safe: the machine stops where the source is silent (log 5). -/
  | keypadIndexOutOfRange (pc : Word) (index : Byte)
  deriving DecidableEq, Repr

/-- Why an instruction has no meaning in the model. -/
inductive Refusal where
  /-- Raised by `exec` for an instruction not yet modelled; no arm raises it. Safe: the machine stops. -/
  | notModelled (mnemonic : String)
  deriving DecidableEq, Repr

/-- Memory as the list of the bytes that differ from their reset contents, addresses rising (10_state.md R26;
log 27). What an unlisted address reads as is `Memory.initial` in Machine/Ops.lean. -/
abbrev Memory := List Host.Cell

/-- Everything the spec gives the machine (10_state.md R20 to R31), and the model's own two fields for the random
source (R32; log 17). -/
structure State where
  /-- `x[0]`..`x[15]`; `x[15]` is the flag register (R20, R21). -/
  v : Vector Byte 16
  /-- The address register `I` (R22). -/
  i : Word
  /-- The program counter (R23). -/
  pc : Word
  /-- The stack pointer, 0..16 (R24; log 28). -/
  sp : Fin 17
  /-- The call-stack slots (R24). -/
  stack : Vector Word 16
  /-- The delay timer `DT` (R25). -/
  dt : Byte
  /-- The sound timer `ST` (R25). -/
  st : Byte
  /-- The 4096 bytes of memory (R26). -/
  mem : Memory
  /-- `D[r][c]`: 32 rows of 64 pixels (R27). -/
  display : Vector (Vector Bool 64) 32
  /-- The display-changed flag (R28). -/
  changed : Bool
  /-- `key[0]`..`key[15]` (R29). -/
  key : Vector Bool 16
  /-- The mode: true is AWAITING_KEY (R30). -/
  waiting : Bool
  /-- The latched target register index (R30). -/
  waitReg : RegIdx
  /-- The fault latch (R31). -/
  fault : Option Fault
  /-- The model's own: bytes the host has injected into the random source and no `rand` has drawn (log 17). -/
  rndSeq : List Byte
  /-- The model's own: how many bytes have been drawn (log 17). -/
  rndDraws : Nat
  deriving DecidableEq, Repr

/-- The state after `new()` (10_state.md R35): all zero, the font in memory (its bytes are the reset contents, so
nothing is listed), `pc` at 0x200, mode RUNNING, no fault. -/
def State.reset : State where
  v := Vector.replicate 16 0
  i := 0
  pc := Config.pcReset
  sp := 0
  stack := Vector.replicate 16 0
  dt := 0
  st := 0
  mem := []
  display := Vector.replicate 32 (Vector.replicate 64 false)
  changed := false
  key := Vector.replicate 16 false
  waiting := false
  waitReg := 0
  fault := none
  rndSeq := []
  rndDraws := 0

end Sys2Proof.Machine
end

