-- ==== Sys2Proof/Machine/Ops.lean ====
section
/-! DEFINITION. The named operations over memory, registers, stack, display, keypad, timers and the fault latch, each
written once from the spec. Raising an error condition (60_exceptions.md R178) is `State.raise`; there is no return
from one (R179), only `new()` or reset. -/

namespace Sys2Proof.Machine

/-! ## Memory (20_memory.md) -/

/-- The reset contents of an address (10_state.md R35): the font at `FONT_BASE`, zero elsewhere. It is also what an
unlisted address reads as (log 27). -/
def Memory.initial (a : Nat) : Byte :=
  if a < Config.fontBase then 0 else Config.font.getD (a - Config.fontBase) 0

/-- The byte listed for an address, if one is. -/
def Memory.lookup : Memory → Nat → Option Byte
  | [], _ => none
  | (a', b) :: m, a => if a = a' then some b else Memory.lookup m a

/-- The byte at an address of memory. Used only for addresses below `MEM_SIZE`: the operations with a range check are
`read` and `readBytes`. -/
def Memory.get (m : Memory) (a : Nat) : Byte := (m.lookup a).getD (Memory.initial a)

/-- `MemRead(addr, 1)` (20_memory.md R52): no byte at an address above 0xFFF. -/
def Memory.read (m : Memory) (a : Nat) : Option Byte :=
  if a < Config.memSize then some (m.get a) else none

/-- Memory without the cell of an address. -/
def Memory.remove (m : Memory) (a : Nat) : Memory := m.filter fun c => !(c.1 == a)

/-- A cell put before the first larger address. -/
def Memory.insert : Memory → Nat → Byte → Memory
  | [], a, b => [(a, b)]
  | (a', b') :: m, a, b => if a < a' then (a, b) :: (a', b') :: m else (a', b') :: Memory.insert m a b

/-- Set one byte, keeping addresses rising and no cell at its reset contents (log 27). Used only for addresses below
`MEM_SIZE`: the operation with a range check is `writeBytes`. -/
def Memory.put (m : Memory) (a : Nat) (b : Byte) : Memory :=
  if b = Memory.initial a then m.remove a else (m.remove a).insert a b

/-- Set bytes at ascending addresses from `base` (20_memory.md R54). -/
def Memory.putAll (m : Memory) (base : Nat) : List Byte → Memory
  | [] => m
  | b :: bs => Memory.putAll (m.put base b) (base + 1) bs

/-- The bytes at `n` ascending addresses from `base` (20_memory.md R54). -/
def Memory.getAll (m : Memory) (base : Nat) : Nat → List Byte
  | 0 => []
  | n + 1 => m.get base :: Memory.getAll m (base + 1) n

/-- All of the `n` addresses from `base` exist (20_memory.md R52); no address is used when `n = 0` (44_display.md
R151). -/
def inRange (base n : Nat) : Bool := n = 0 || base + n ≤ Config.memSize

/-- `n` reads at ascending addresses, all checked before any is made (20_memory.md R52, 60_exceptions.md R175). -/
def Memory.readBytes (m : Memory) (base n : Nat) : Option (List Byte) :=
  if inRange base n then some (m.getAll base n) else none

/-- Writes at ascending addresses, all checked before any is made (20_memory.md R52, 60_exceptions.md R175). -/
def Memory.writeBytes (m : Memory) (base : Nat) (bs : List Byte) : Option Memory :=
  if inRange base bs.length then some (m.putAll base bs) else none

/-- Addresses strictly rising, all above `low` when there is one. -/
def Memory.rising : Option Nat → Memory → Bool
  | _, [] => true
  | none, (a, _) :: m => Memory.rising (some a) m
  | some low, (a, _) :: m => decide (low < a) && Memory.rising (some a) m

/-- The canonical form: addresses strictly rising, each in memory, no cell at its reset contents (log 27). -/
def Memory.wf (m : Memory) : Bool :=
  Memory.rising none m && m.all fun c => decide (c.1 < Config.memSize) && decide (c.2 ≠ Memory.initial c.1)

/-- The first address out of range of accesses that start at `base` (43_index_memory.md R143, 40_cycle_dispatch.md
R95). -/
def firstOutOfRange (base : Nat) : Nat := max base Config.memSize

/-- One byte of memory as the host and the claims read it. -/
def State.readByte (s : State) (a : Nat) : Option Byte := s.mem.read a

/-! ## Registers (10_state.md R20 to R23) -/

/-- Read of general register `r` (10_state.md R20). -/
def State.reg (s : State) (r : RegIdx) : Byte := s.v[r]

/-- Write of general register `r` (10_state.md R20). -/
def State.setReg (s : State) (r : RegIdx) (b : Byte) : State := { s with v := s.v.set r b }

/-- Write of `I` (10_state.md R22). -/
def State.setI (s : State) (a : Word) : State := { s with i := a }

/-- `pc <- target` (10_state.md R23). -/
def State.setPc (s : State) (a : Word) : State := { s with pc := a }

/-- `pc <- pc + 2`, the default advance in bytes of address (40_cycle_dispatch.md R97; 90_conflicts.md C2). -/
def State.advance (s : State) : State := s.setPc (s.pc + 2)

/-- `pc <- pc + 4` if the condition holds, else `pc + 2` (40_cycle_dispatch.md R97). -/
def State.skipIf (s : State) (cond : Bool) : State := s.setPc (if cond then s.pc + 4 else s.pc + 2)

/-- Load registers 0, 1, … with bytes, in this order, from register `k` on (43_index_memory.md R145). -/
def State.setRegsFrom (s : State) : Nat → List Byte → State
  | _, [] => s
  | k, b :: bs => if h : k < 16 then (s.setReg ⟨k, h⟩ b).setRegsFrom (k + 1) bs else s

/-- The bytes of registers 0 to `x` inclusive (43_index_memory.md R144). -/
def State.regsUpTo (s : State) (x : RegIdx) : List Byte :=
  ((List.finRange 16).filter fun r => r ≤ x).map s.reg

/-! ## The call stack (10_state.md R24) -/

/-- Push: write `stack[sp]`, then add 1 to `sp`; no result at depth 16 (10_state.md R24; log 11). -/
def State.push (s : State) (a : Word) : Option State :=
  if h : s.sp.val < Config.stackDepth then
    some { s with stack := s.stack.set s.sp.val a h, sp := ⟨s.sp.val + 1, Nat.succ_lt_succ h⟩ }
  else none

/-- Pop: subtract 1 from `sp`, then read `stack[sp]`; the slot keeps its value; no result on an empty stack
(10_state.md R24; log 11). -/
def State.pop (s : State) : Option (Word × State) :=
  if h : s.sp.val = 0 then none
  else
    have hlt : s.sp.val - 1 < 16 := by have := s.sp.isLt; omega
    some (s.stack[s.sp.val - 1], { s with sp := ⟨s.sp.val - 1, Nat.lt_succ_of_lt hlt⟩ })

/-! ## Timers (10_state.md R25) -/

/-- One decrement, floor at 0 (40_cycle_dispatch.md R94). -/
def tick (t : Byte) : Byte := if t = 0 then 0 else t - 1

/-- Line 3 of the step: both timers tick (40_cycle_dispatch.md R94). -/
def State.tickTimers (s : State) : State := { s with dt := tick s.dt, st := tick s.st }

/-- Write of `DT` (45_keypad_timers.md R164). -/
def State.setDt (s : State) (b : Byte) : State := { s with dt := b }

/-- Write of `ST` (45_keypad_timers.md R165). -/
def State.setSt (s : State) (b : Byte) : State := { s with st := b }

/-! ## Memory of a state -/

/-- Replace memory. -/
def State.setMem (s : State) (m : Memory) : State := { s with mem := m }

/-! ## Display (10_state.md R27, R28) -/

/-- `D[r][c]` (10_state.md R27). -/
def State.pixel (s : State) (r : Fin 32) (c : Fin 64) : Bool := s.display[r][c]

/-- `D[r][c] <- b` (10_state.md R27). -/
def State.setPixel (s : State) (r : Fin 32) (c : Fin 64) (b : Bool) : State :=
  { s with display := s.display.set r ((s.display[r]).set c b) }

/-- Every pixel 0 (44_display.md R150). -/
def State.clearDisplay (s : State) : State :=
  { s with display := Vector.replicate 32 (Vector.replicate 64 false) }

/-- Write of the changed flag (10_state.md R28). -/
def State.setChanged (s : State) (b : Bool) : State := { s with changed := b }

/-! ## Keypad and the input-wait state (10_state.md R29, R30) -/

/-- `key[k]` (10_state.md R29). -/
def State.keyAt (s : State) (k : RegIdx) : Bool := s.key[k]

/-- `key[k] <- b`, the host's write (10_state.md R29). -/
def State.setKey (s : State) (k : RegIdx) (b : Bool) : State := { s with key := s.key.set k b }

/-- The smallest pressed key index: slots 0 through 15 in increasing order (40_cycle_dispatch.md R93). -/
def State.firstPressed (s : State) : Option RegIdx := (List.finRange 16).find? s.keyAt

/-- Enter AWAITING_KEY with a target register (45_keypad_timers.md R162). -/
def State.beginWait (s : State) (x : RegIdx) : State := { s with waiting := true, waitReg := x }

/-- Leave AWAITING_KEY (40_cycle_dispatch.md R93). -/
def State.endWait (s : State) : State := { s with waiting := false }

/-! ## The random source (60_exceptions.md R185) -/

/-- `rnd`: the byte the random source supplies to the next `rand` (00_scope.md R8): the host's injected byte if there
is one, else the free value (log 17). -/
def State.rnd (s : State) : Byte :=
  match s.rndSeq with
  | b :: _ => b
  | [] => Config.randomByte s.rndDraws

/-- One byte is consumed per executed `rand` (42_alu.md R131). -/
def State.consumeRnd (s : State) : State := { s with rndSeq := s.rndSeq.tail, rndDraws := s.rndDraws + 1 }

/-! ## Error conditions (60_exceptions.md R178, R179) -/

/-- `raise K(info)` (60_exceptions.md R178): `fault <- K(info)` and nothing else; no mode changes, no stack is
touched, control goes nowhere (log 12). -/
def State.raise (s : State) (f : Fault) : State := { s with fault := some f }

/-- The outcome of an instruction that raises: the next state is the latched one (log 12). -/
def raised (f : Fault) (s : State) : Host.Outcome State Fault Refusal := .next (s.raise f)

/-- `AddressOutOfRange` for accesses that start at `base` (60_exceptions.md R175). -/
def State.rangeFault (s : State) (base : Nat) : Fault := .addressOutOfRange s.pc (firstOutOfRange base)

/-! ## Placing an instruction -/

/-- The word `w` stored at address `a`, high byte first (20_memory.md R53). -/
def Memory.putWord (m : Memory) (a : Nat) (w : Word) : Memory := m.putAll a [highByte w, lowByte w]

/-- The state with the word `w` where the next step fetches, in a mode in which it fetches: no fault latched, RUNNING,
and `pc` at a fetchable address (its own if it is one, else 0x200) (log 29). -/
def State.placeWord (s : State) (w : Word) : State :=
  let a : Word := if s.pc.toNat + 2 ≤ Config.memSize then s.pc else Config.pcReset
  { s with fault := none, waiting := false, pc := a, mem := s.mem.putWord a.toNat w }

end Sys2Proof.Machine
end

