-- ==== Sys2Proof/Machine/Cycle.lean ====
section
/-! DEFINITION. The step around the instruction (spec/40_cycle_dispatch.md R90 to R98): everything `step` does but
running the decoded instruction, which it is given. -/

namespace Sys2Proof.Machine

/-- Line 4, the fetch: both bytes must be in memory (R95). -/
def State.fetchWord (s : State) : Option Word :=
  if inRange s.pc.toNat Config.instrBytes then
    some (wordOfBytes (s.mem.get s.pc.toNat) (s.mem.get (s.pc.toNat + 1)))
  else none

/-- Line 2, a step in AWAITING_KEY (R93): the lowest pressed key goes to the target register and the wait ends; with
no key pressed nothing changes. -/
def State.awaitKey (s : State) : State :=
  match s.firstPressed with
  | some k => (s.setReg s.waitReg (byteOfIdx k)).endWait
  | none => s

/-- Lines 4 to 6 (R95, R96): fetch, decode, run; each failure raises and leaves `pc` where it is (R98). -/
def fetchAndRun (run : Instr → State → Host.Outcome State Fault Refusal) (s : State) :
    Host.Outcome State Fault Refusal :=
  match s.fetchWord with
  | none => raised (s.rangeFault s.pc.toNat) s
  | some w =>
    match decode w with
    | .error _ => raised (.illegalOpcode s.pc w) s
    | .ok i => run i s

/-- The whole step (R90): line 0 answers the latched fault and changes nothing (R91; log 12), line 1 clears `changed`
(R92), line 2 is the AWAITING_KEY mode (R93), line 3 ticks the timers (R94), lines 4 to 6 run an instruction. -/
def runCycle (run : Instr → State → Host.Outcome State Fault Refusal) (s : State) :
    Host.Outcome State Fault Refusal :=
  match s.fault with
  | some f => .fault f
  | none =>
    if s.waiting then .next (s.setChanged false).awaitKey
    else fetchAndRun run (s.setChanged false).tickTimers

end Sys2Proof.Machine
end

