-- ==== Sys2Proof/Machine/Flags.lean ====
section
/-! DEFINITION. Every flag computation (spec/10_state.md R21): the conditions and the one write of the whole byte
`x[0xF]` with 0 or 1 (42_alu.md R133). -/

namespace Sys2Proof.Machine

/-- The value of a flag: exactly 0 or 1 (42_alu.md R133). -/
def flagByte (b : Bool) : Byte := if b then 1 else 0

/-- Write the flag register (10_state.md R21). -/
def State.setFlag (s : State) (b : Bool) : State := s.setReg Config.flagReg (flagByte b)

/-- The flag of `add`: the true sum exceeds 255 (42_alu.md R126, R132). -/
def carries (sum : Nat) : Bool := decide (255 < sum)

/-- The flag of `sub` and `subn`: a strict comparison, not a borrow (42_alu.md R127, R129, R132). -/
def exceeds (a b : Byte) : Bool := decide (b.toNat < a.toNat)

/-- The flag of `shr`: bit 0 before the shift (42_alu.md R128). -/
def bitZero (a : Byte) : Bool := a.getLsbD 0

/-- The flag of `shl`: bit 7 before the shift (42_alu.md R130). -/
def bitSeven (a : Byte) : Bool := a.getLsbD 7

/-- The flag of `add-i`: the new `I` strictly exceeds the bound 0x0F00 (43_index_memory.md R141; log 6). -/
def passesBound (a : Word) : Bool := decide (Config.addIBound < a.toNat)

/-- The collision term of `draw`: `x[0xF] <- x[0xF] | hit` (44_display.md R151; 90_conflicts.md C3, log 30). -/
def State.orFlag (s : State) (hit : Bool) : State :=
  s.setReg Config.flagReg (s.reg Config.flagReg ||| flagByte hit)

end Sys2Proof.Machine
end

