-- ==== Sys2Proof/Machine/Operands.lean ====
section
/-! DEFINITION. The operand forms: the one addressing mode (spec/43_index_memory.md R146), the pixel a sprite bit lands
on and the bit itself (44_display.md R151), the glyph address (R142), the decimal digits (R143). Immediates are used as
their bits stand (30_encoding.md R73). -/

namespace Sys2Proof.Machine

/-- The effective address `I + offset`, an unbounded integer (43_index_memory.md R146, 20_memory.md R52). -/
def State.effAddr (s : State) (offset : Nat) : Nat := s.i.toNat + offset

/-- The column of a sprite bit: `(Vx + bit) mod 64` (44_display.md R151). -/
def column (vx : Byte) (bit : Nat) : Fin 64 := ⟨(vx.toNat + bit) % Config.width, Nat.mod_lt _ (by decide)⟩

/-- The row of a sprite row: `(Vy + row) mod 32` (44_display.md R151). -/
def rowOf (vy : Byte) (row : Nat) : Fin 32 := ⟨(vy.toNat + row) % Config.height, Nat.mod_lt _ (by decide)⟩

/-- Sprite bit `bit` of a byte: `b[7 - bit]`. PRESUMED: bit index 0 is the byte's bit 7 (44_display.md R151; the spec's
decision D10, log 9). -/
def spriteBit (b : Byte) (bit : Nat) : Bool := b.getLsbD (7 - bit)

/-- The address of the glyph of `Vx`: the whole 8-bit value times 5 (43_index_memory.md R142). -/
def glyphAddr (vx : Byte) : Word := zext16 vx * 5

/-- The hundreds, tens and ones digits, one per byte (43_index_memory.md R143). -/
def bcdDigits (v : Byte) : List Byte :=
  [BitVec.ofNat 8 (v.toNat / 100), BitVec.ofNat 8 (v.toNat / 10 % 10), BitVec.ofNat 8 (v.toNat % 10)]

/-- The keypad index of a register value: none above 15; it is not masked (45_keypad_timers.md R160; log 5). -/
def keyIndex (k : Byte) : Option RegIdx := if h : k.toNat < 16 then some ⟨k.toNat, h⟩ else none

end Sys2Proof.Machine
end

