-- ==== Sys2Proof/Machine/Alu.lean ====
section
/-! DEFINITION. The register, arithmetic, logic, shift and random instructions (spec/42_alu.md). Statements run in the
written order on the live register file (00_scope.md R10; log 7), which decides the outcome when register 15 is also an
operand (R133). Arithmetic is unsigned and wraps modulo 256 (R132). -/

namespace Sys2Proof.Machine

/-- `load-imm x,nn` (R120). -/
def execLoadImm (x : RegIdx) (nn : Byte) (s : State) : Host.Outcome State Fault Refusal :=
  .next (s.setReg x nn).advance

/-- `add-imm x,nn` (R121): no flag update. -/
def execAddImm (x : RegIdx) (nn : Byte) (s : State) : Host.Outcome State Fault Refusal :=
  .next (s.setReg x (s.reg x + nn)).advance

/-- `move x,y` (R122). -/
def execMove (x y : RegIdx) (s : State) : Host.Outcome State Fault Refusal :=
  .next (s.setReg x (s.reg y)).advance

/-- `or x,y` (R123): no flag update. -/
def execOr (x y : RegIdx) (s : State) : Host.Outcome State Fault Refusal :=
  .next (s.setReg x (s.reg x ||| s.reg y)).advance

/-- `and x,y` (R124): no flag update. -/
def execAnd (x y : RegIdx) (s : State) : Host.Outcome State Fault Refusal :=
  .next (s.setReg x (s.reg x &&& s.reg y)).advance

/-- `xor x,y` (R125): no flag update. -/
def execXor (x y : RegIdx) (s : State) : Host.Outcome State Fault Refusal :=
  .next (s.setReg x (s.reg x ^^^ s.reg y)).advance

/-- `add x,y` (R126): the sum is formed before any write, the flag is written after the result. -/
def execAdd (x y : RegIdx) (s : State) : Host.Outcome State Fault Refusal :=
  let sum := (s.reg x).toNat + (s.reg y).toNat
  .next ((s.setReg x (BitVec.ofNat 8 sum)).setFlag (carries sum)).advance

/-- `sub x,y` (R127): the flag is written first, the difference reads the live registers. -/
def execSub (x y : RegIdx) (s : State) : Host.Outcome State Fault Refusal :=
  let t := s.setFlag (exceeds (s.reg x) (s.reg y))
  .next (t.setReg x (t.reg x - t.reg y)).advance

/-- `shr x` (R128): the flag is written first, the shift reads the live register. -/
def execShr (x : RegIdx) (s : State) : Host.Outcome State Fault Refusal :=
  let t := s.setFlag (bitZero (s.reg x))
  .next (t.setReg x (t.reg x >>> 1)).advance

/-- `subn x,y` (R129): the flag is written first, the difference reads the live registers. -/
def execSubn (x y : RegIdx) (s : State) : Host.Outcome State Fault Refusal :=
  let t := s.setFlag (exceeds (s.reg y) (s.reg x))
  .next (t.setReg x (t.reg y - t.reg x)).advance

/-- `shl x` (R130): the flag is written first, the shift reads the live register. -/
def execShl (x : RegIdx) (s : State) : Host.Outcome State Fault Refusal :=
  let t := s.setFlag (bitSeven (s.reg x))
  .next (t.setReg x (t.reg x <<< 1)).advance

/-- `rand x,nn` (R131): one byte of the random source is consumed. -/
def execRand (x : RegIdx) (nn : Byte) (s : State) : Host.Outcome State Fault Refusal :=
  .next (s.consumeRnd.setReg x (s.rnd &&& nn)).advance

end Sys2Proof.Machine
end

