-- ==== Sys2Proof/Machine/Control.lean ====
section
/-! DEFINITION. The control-flow instructions (spec/41_control_flow.md). Targets are used as they stand, unchecked
(R118); `pc` is the address of the instruction itself. -/

namespace Sys2Proof.Machine

/-- `return` (R110): pop, or `StackUnderflow` on an empty stack. -/
def execRet (s : State) : Host.Outcome State Fault Refusal :=
  match s.pop with
  | none => raised (.stackUnderflow s.pc) s
  | some (a, t) => .next (t.setPc a)

/-- `jump nnn` (R111). -/
def execJump (nnn : Addr12) (s : State) : Host.Outcome State Fault Refusal := .next (s.setPc (zext16 nnn))

/-- `call nnn` (R112): push `pc + 2`, or `StackOverflow` at depth 16. -/
def execCall (nnn : Addr12) (s : State) : Host.Outcome State Fault Refusal :=
  match s.push (s.pc + 2) with
  | none => raised (.stackOverflow s.pc) s
  | some t => .next (t.setPc (zext16 nnn))

/-- `skip-eq-imm x,nn` (R113). -/
def execSkipEqImm (x : RegIdx) (nn : Byte) (s : State) : Host.Outcome State Fault Refusal :=
  .next (s.skipIf (s.reg x = nn))

/-- `skip-ne-imm x,nn` (R114). -/
def execSkipNeImm (x : RegIdx) (nn : Byte) (s : State) : Host.Outcome State Fault Refusal :=
  .next (s.skipIf (s.reg x ≠ nn))

/-- `skip-eq-reg x,y` (R115). -/
def execSkipEqReg (x y : RegIdx) (s : State) : Host.Outcome State Fault Refusal :=
  .next (s.skipIf (s.reg x = s.reg y))

/-- `skip-ne-reg x,y` (R116). -/
def execSkipNeReg (x y : RegIdx) (s : State) : Host.Outcome State Fault Refusal :=
  .next (s.skipIf (s.reg x ≠ s.reg y))

/-- `jump-offset nnn` (R117): always register 0; the sum is not reduced modulo 4096. -/
def execJumpOffset (nnn : Addr12) (s : State) : Host.Outcome State Fault Refusal :=
  .next (s.setPc (zext16 nnn + zext16 (s.reg 0)))

end Sys2Proof.Machine
end

