-- ==== Sys2Proof/Machine/Display.lean ====
section
/-! DEFINITION. The display instructions and the XOR-draw engine (spec/44_display.md R150, R151). The position
registers are read live inside the loops (R151 (d); log 7). -/

namespace Sys2Proof.Machine

/-- `clear-screen` (R150): the flag `changed` is set even if the display was already clear. -/
def execClearScreen (s : State) : Host.Outcome State Fault Refusal :=
  .next (s.clearDisplay.setChanged true).advance

/-- One sprite bit (R151): collision into `VF`, then XOR into the pixel. -/
def drawPixel (x y : RegIdx) (row : Nat) (b : Byte) (s : State) (bit : Nat) : State :=
  let c := column (s.reg x) bit
  let r := rowOf (s.reg y) row
  let sb := spriteBit b bit
  let old := s.pixel r c
  (s.orFlag (sb && old)).setPixel r c (old ^^ sb)

/-- One sprite row: bits 0 to 7 in this order (R151). -/
def drawRow (x y : RegIdx) (row : Nat) (b : Byte) (s : State) : State :=
  (List.range 8).foldl (drawPixel x y row b) s

/-- The sprite rows in order, from row number `row` (R151). -/
def drawRows (x y : RegIdx) : Nat → List Byte → State → State
  | _, [], s => s
  | row, b :: bs, s => drawRows x y (row + 1) bs (drawRow x y row b s)

/-- `draw x,y,n` (R151): all row addresses are checked first, none when `n = 0`. -/
def execDraw (x y : RegIdx) (n : Nat) (s : State) : Host.Outcome State Fault Refusal :=
  match s.mem.readBytes (s.effAddr 0) n with
  | none => raised (s.rangeFault (s.effAddr 0)) s
  | some bs => .next ((drawRows x y 0 bs (s.setFlag false)).setChanged true).advance

end Sys2Proof.Machine
end

