-- ==== Sys2Proof/Machine/Index.lean ====
section
/-! DEFINITION. The address-register and memory instructions (spec/43_index_memory.md). `I` is left unchanged by every
memory instruction (R146); a range that leaves memory raises `AddressOutOfRange` before anything is written
(60_exceptions.md R175; log 4). -/

namespace Sys2Proof.Machine

/-- `load-i nnn` (R140). -/
def execLoadI (nnn : Addr12) (s : State) : Host.Outcome State Fault Refusal := .next (s.setI (zext16 nnn)).advance

/-- `add-i x` (R141): `I` first (modulo 65536), then the flag from the `I` just written. -/
def execAddI (x : RegIdx) (s : State) : Host.Outcome State Fault Refusal :=
  let t := s.setI (s.i + zext16 (s.reg x))
  .next (t.setFlag (passesBound t.i)).advance

/-- `font-addr x` (R142). -/
def execFontAddr (x : RegIdx) (s : State) : Host.Outcome State Fault Refusal :=
  .next (s.setI (glyphAddr (s.reg x))).advance

/-- `bcd x` (R143). -/
def execBcd (x : RegIdx) (s : State) : Host.Outcome State Fault Refusal :=
  match s.mem.writeBytes (s.effAddr 0) (bcdDigits (s.reg x)) with
  | none => raised (s.rangeFault (s.effAddr 0)) s
  | some m => .next (s.setMem m).advance

/-- `store-regs x` (R144): registers 0 to `x` inclusive. -/
def execStoreRegs (x : RegIdx) (s : State) : Host.Outcome State Fault Refusal :=
  match s.mem.writeBytes (s.effAddr 0) (s.regsUpTo x) with
  | none => raised (s.rangeFault (s.effAddr 0)) s
  | some m => .next (s.setMem m).advance

/-- `load-regs x` (R145): registers 0 to `x` inclusive. -/
def execLoadRegs (x : RegIdx) (s : State) : Host.Outcome State Fault Refusal :=
  match s.mem.readBytes (s.effAddr 0) (x.val + 1) with
  | none => raised (s.rangeFault (s.effAddr 0)) s
  | some bs => .next (s.setRegsFrom 0 bs).advance

end Sys2Proof.Machine
end

