-- ==== Sys2Proof/Machine/Keypad.lean ====
section
/-! DEFINITION. The keypad and timer instructions (spec/45_keypad_timers.md). They run after this step's timer tick. -/

namespace Sys2Proof.Machine

/-- `skip-key x` (R160): the index is the register's value; above 15 it raises. -/
def execSkipKey (x : RegIdx) (s : State) : Host.Outcome State Fault Refusal :=
  match keyIndex (s.reg x) with
  | none => raised (.keypadIndexOutOfRange s.pc (s.reg x)) s
  | some k => .next (s.skipIf (s.keyAt k))

/-- `skip-nokey x` (R161): the condition inverted. -/
def execSkipNokey (x : RegIdx) (s : State) : Host.Outcome State Fault Refusal :=
  match keyIndex (s.reg x) with
  | none => raised (.keypadIndexOutOfRange s.pc (s.reg x)) s
  | some k => .next (s.skipIf (!s.keyAt k))

/-- `wait-key x` (R162): the index is latched, the register is written by a later step. -/
def execWaitKey (x : RegIdx) (s : State) : Host.Outcome State Fault Refusal := .next (s.beginWait x).advance

/-- `load-dt x` (R163). -/
def execLoadDt (x : RegIdx) (s : State) : Host.Outcome State Fault Refusal := .next (s.setReg x s.dt).advance

/-- `set-dt x` (R164). -/
def execSetDt (x : RegIdx) (s : State) : Host.Outcome State Fault Refusal := .next (s.setDt (s.reg x)).advance

/-- `set-st x` (R165). -/
def execSetSt (x : RegIdx) (s : State) : Host.Outcome State Fault Refusal := .next (s.setSt (s.reg x)).advance

end Sys2Proof.Machine
end

