-- ==== Sys2Proof/Machine/Step.lean ====
section
/-! DEFINITION. `step()` (spec/40_cycle_dispatch.md R90) and where the next instruction is fetched from. -/

namespace Sys2Proof.Machine

/-- One machine cycle (40_cycle_dispatch.md R90): the frame of Machine/Cycle.lean around `exec`. -/
def step (s : State) : Host.Outcome State Fault Refusal := runCycle exec s

/-- `s` with the instruction whose bits are `w` (numbered as spec/opcode_table.json numbers them) where the next step
fetches, so that this step runs it (log 29). -/
def State.withFetchWord (s : State) (nbits w : Nat) : State := s.placeWord (BitVec.ofNat 16 (w % 2 ^ nbits))

end Sys2Proof.Machine
end

