-- ==== Sys2Proof/Machine/HostOps.lean ====
section
/-! DEFINITION. What the host does to the state between steps (spec/60_exceptions.md R190, 70_reset_and_hazards.md R200
to R202), each operation as a function; when an operation has a move is in Machine/Session.lean. -/

namespace Sys2Proof.Machine

/-- The result of `load` (70_reset_and_hazards.md R202, 60_exceptions.md R174). `romTooLarge` is advisory and is never
latched; it records the length given (R170). -/
inductive LoadResult where
  | ok
  | romTooLarge (length : Nat)
  deriving DecidableEq, Repr

/-- The result of `step` (40_cycle_dispatch.md R90): `Ok`, or `Fault(K)`. -/
inductive StepResult where
  | ok
  | fault (f : Fault)
  deriving DecidableEq, Repr

/-- The spec's own numeric codes of the conditions of a step (60_exceptions.md R170; log 26). -/
def Fault.code : Fault → Nat
  | .stackOverflow _ => 1
  | .stackUnderflow _ => 2
  | .illegalOpcode _ _ => 3
  | .addressOutOfRange _ _ => 5
  | .keypadIndexOutOfRange _ _ => 6

/-- The spec's own numeric code of `RomTooLarge` (60_exceptions.md R170; log 26). -/
def LoadResult.code : LoadResult → Option Nat
  | .ok => none
  | .romTooLarge _ => some 4

/-- `new()` (70_reset_and_hazards.md R200). -/
def newMachine : State := State.reset

/-- Reset is `new()`: nothing survives it (70_reset_and_hazards.md R201; log 13). The random source is outside the
machine (10_state.md R32), so the model's two fields for it are kept. -/
def State.hostReset (s : State) : State := { newMachine with rndSeq := s.rndSeq, rndDraws := s.rndDraws }

/-- `load(bytes)` (70_reset_and_hazards.md R202): the first 3584 bytes go to 0x200 onward, nothing else changes, and a
longer program is reported (log 14). -/
def State.load (s : State) (bytes : List Byte) : State × LoadResult :=
  (s.setMem (s.mem.putAll Config.programStart (bytes.take Config.romMax)),
   if bytes.length ≤ Config.romMax then .ok else .romTooLarge bytes.length)

/-- `key_down(k)` (60_exceptions.md R183). -/
def State.keyDown (s : State) (k : RegIdx) : State := s.setKey k true

/-- `key_up(k)` (60_exceptions.md R183). -/
def State.keyUp (s : State) (k : RegIdx) : State := s.setKey k false

/-- The host supplies the next bytes of the random source (60_exceptions.md R185; log 17). -/
def State.injectRandom (s : State) (bs : List Byte) : State := { s with rndSeq := s.rndSeq ++ bs }

/-- The host reads the changed flag (60_exceptions.md R190). It reads a pixel with `State.pixel`. -/
def State.readChanged (s : State) : Bool := s.changed

/-- What a step that ended in this state returned (60_exceptions.md R178): `Fault(K)` exactly when it left a
condition latched. -/
def State.stepResult (s : State) : StepResult :=
  match s.fault with
  | none => .ok
  | some f => .fault f

end Sys2Proof.Machine
end

