-- ==== Sys2Proof/Machine/Session.lean ====
section
/-! DEFINITION. The host and the machine together (spec/60_exceptions.md R190, 70_reset_and_hazards.md R203): the
host's operations in any order between steps, and no move for a contract violation (log 16). -/

namespace Sys2Proof.Machine

/-- What the host can do between steps and the step itself (60_exceptions.md R190). Key indices are as the host gives
them. -/
inductive HostEvent where
  | reset
  | load (bytes : List Byte)
  | keyDown (k : Nat)
  | keyUp (k : Nat)
  | injectRandom (bytes : List Byte)
  | step
  deriving DecidableEq, Repr

/-- A machine in its host's hands: its state, and whether it has been stepped since the last `new()` or reset. -/
structure Session where
  state : State
  stepped : Bool
  deriving DecidableEq, Repr

/-- `new()` (70_reset_and_hazards.md R203, first). -/
def Session.new : Session := ⟨newMachine, false⟩

/-- The `step()` of 40_cycle_dispatch.md R90: the new state and the result. A step of a faulted machine returns the
latched fault and leaves the state as it is (R91). No state leads to a refusal; there the machine has no step. -/
def cycle (s : State) : Option (State × StepResult) :=
  match step s with
  | .next t => some (t, t.stepResult)
  | .fault f => some (s, .fault f)
  | .refused _ => none

/-- The session after an event; none where the host's contract gives it no move (60_exceptions.md R190): a key index
above 15, a `load` after the first step. DESIGN CHOICE: a second `load` before the first step, which the source does not
describe (91_not_in_source.md N28), has a move, and puts its bytes over those of the load before (log 32). -/
def Session.apply (m : Session) (e : HostEvent) : Option Session :=
  match e with
  | .reset => some ⟨m.state.hostReset, false⟩
  | .load bytes => if m.stepped then none else some { m with state := (m.state.load bytes).1 }
  | .keyDown k => if h : k < 16 then some { m with state := m.state.keyDown ⟨k, h⟩ } else none
  | .keyUp k => if h : k < 16 then some { m with state := m.state.keyUp ⟨k, h⟩ } else none
  | .injectRandom bytes => some { m with state := m.state.injectRandom bytes }
  | .step => (cycle m.state).map fun r => ⟨r.1, true⟩

/-- The session after a sequence of events, if each has a move. -/
def Session.run : List HostEvent → Session → Option Session
  | [], m => some m
  | e :: es, m => (m.apply e).bind (Session.run es)

end Sys2Proof.Machine
end

