-- ==== Sys2Proof/Safety.lean ====
section
/-! DEFINITION. The terms claims are stated in: the parts of the state, what a transition may change, the instruction a
step executes, which parts an instruction may write (spec/00_scope.md R9), and the invariant of every reachable state
(10_state.md R36). -/

namespace Sys2Proof

open Machine

/-- The seven instructions that write `VF` as a flag (10_state.md R21). -/
def Instr.writesFlag : Instr → Bool
  | .add _ _ | .sub _ _ | .shr _ | .subn _ _ | .shl _ | .addI _ | .draw _ _ _ => true
  | .clearScreen | .ret | .jump _ | .call _ | .skipEqImm _ _ | .skipNeImm _ _ | .skipEqReg _ _ | .loadImm _ _
  | .addImm _ _ | .move _ _ | .or _ _ | .and _ _ | .xor _ _ | .skipNeReg _ _ | .loadI _ | .jumpOffset _ | .rand _ _
  | .skipKey _ | .skipNokey _ | .loadDt _ | .waitKey _ | .setDt _ | .setSt _ | .fontAddr _ | .bcd _ | .storeRegs _
  | .loadRegs _ => false

/-- Register `r` is a destination an instruction names (10_state.md R20), the flag apart. -/
def Instr.hasDest (r : RegIdx) : Instr → Bool
  | .loadImm x _ | .addImm x _ | .move x _ | .or x _ | .and x _ | .xor x _ | .add x _ | .sub x _ | .shr x | .subn x _
  | .shl x | .rand x _ | .loadDt x => decide (r = x)
  | .loadRegs x => decide (r ≤ x)
  | .clearScreen | .ret | .jump _ | .call _ | .skipEqImm _ _ | .skipNeImm _ _ | .skipEqReg _ _ | .skipNeReg _ _
  | .loadI _ | .jumpOffset _ | .draw _ _ _ | .skipKey _ | .skipNokey _ | .waitKey _ | .setDt _ | .setSt _ | .addI _
  | .fontAddr _ | .bcd _ | .storeRegs _ => false

/-- The instruction stores to memory (20_memory.md R50). -/
def Instr.storesMemory : Instr → Bool
  | .bcd _ | .storeRegs _ => true
  | .clearScreen | .ret | .jump _ | .call _ | .skipEqImm _ _ | .skipNeImm _ _ | .skipEqReg _ _ | .loadImm _ _
  | .addImm _ _ | .move _ _ | .or _ _ | .and _ _ | .xor _ _ | .add _ _ | .sub _ _ | .shr _ | .subn _ _ | .shl _
  | .skipNeReg _ _ | .loadI _ | .jumpOffset _ | .rand _ _ | .draw _ _ _ | .skipKey _ | .skipNokey _ | .loadDt _
  | .waitKey _ | .setDt _ | .setSt _ | .addI _ | .fontAddr _ | .loadRegs _ => false

/-- The instruction is `clear-screen` or `draw` (10_state.md R27, R28). -/
def Instr.touchesDisplay : Instr → Bool
  | .clearScreen | .draw _ _ _ => true
  | .ret | .jump _ | .call _ | .skipEqImm _ _ | .skipNeImm _ _ | .skipEqReg _ _ | .loadImm _ _
  | .addImm _ _ | .move _ _ | .or _ _ | .and _ _ | .xor _ _ | .add _ _ | .sub _ _ | .shr _ | .subn _ _ | .shl _
  | .skipNeReg _ _ | .loadI _ | .jumpOffset _ | .rand _ _ | .skipKey _ | .skipNokey _ | .loadDt _
  | .waitKey _ | .setDt _ | .setSt _ | .addI _ | .fontAddr _ | .bcd _ | .storeRegs _ | .loadRegs _ => false

/-- The next `pc` of an instruction that raises nothing: the table of 40_cycle_dispatch.md R97. -/
def Instr.nextPc (s : State) : Instr → Word
  | .jump nnn | .call nnn => zext16 nnn
  | .jumpOffset nnn => zext16 nnn + zext16 (s.reg 0)
  | .ret => if h : s.sp.val - 1 < 16 then s.stack[s.sp.val - 1] else s.pc
  | .skipEqImm x nn => if s.reg x = nn then s.pc + 4 else s.pc + 2
  | .skipNeImm x nn => if s.reg x = nn then s.pc + 2 else s.pc + 4
  | .skipEqReg x y => if s.reg x = s.reg y then s.pc + 4 else s.pc + 2
  | .skipNeReg x y => if s.reg x = s.reg y then s.pc + 2 else s.pc + 4
  | .skipKey x => if ∃ k : RegIdx, k.val = (s.reg x).toNat ∧ s.keyAt k = true then s.pc + 4 else s.pc + 2
  | .skipNokey x => if ∃ k : RegIdx, k.val = (s.reg x).toNat ∧ s.keyAt k = true then s.pc + 2 else s.pc + 4
  | .clearScreen | .loadImm _ _ | .addImm _ _ | .move _ _ | .or _ _ | .and _ _ | .xor _ _ | .add _ _ | .sub _ _
  | .shr _ | .subn _ _ | .shl _ | .loadI _ | .rand _ _ | .draw _ _ _ | .loadDt _ | .waitKey _ | .setDt _ | .setSt _
  | .addI _ | .fontAddr _ | .bcd _ | .storeRegs _ | .loadRegs _ => s.pc + 2

end Sys2Proof

namespace Sys2Proof.Machine

/-- The smallest pieces of the state (10_state.md R20 to R31, and the model's two fields for the random source). -/
inductive Part where
  | reg (r : RegIdx)
  | index
  | pc
  | sp
  | slot (k : Fin 16)
  | delay
  | sound
  | byte (a : Nat)
  | pixel (r : Fin 32) (c : Fin 64)
  | changed
  | key (k : RegIdx)
  | waiting
  | waitReg
  | fault
  | rndSeq
  | rndDraws
  deriving DecidableEq, Repr

/-- The part holds the same in both states. -/
def Part.Same (s t : State) : Part → Prop
  | .reg r => t.reg r = s.reg r
  | .index => t.i = s.i
  | .pc => t.pc = s.pc
  | .sp => t.sp = s.sp
  | .slot k => t.stack[k] = s.stack[k]
  | .delay => t.dt = s.dt
  | .sound => t.st = s.st
  | .byte a => t.readByte a = s.readByte a
  | .pixel r c => t.pixel r c = s.pixel r c
  | .changed => t.changed = s.changed
  | .key k => t.keyAt k = s.keyAt k
  | .waiting => t.waiting = s.waiting
  | .waitReg => t.waitReg = s.waitReg
  | .fault => t.fault = s.fault
  | .rndSeq => t.rndSeq = s.rndSeq
  | .rndDraws => t.rndDraws = s.rndDraws

/-- From `s` to `t` nothing changes but parts that `may` change: the frame of a transition. -/
def OnlyChanges (s t : State) (may : Part → Prop) : Prop := ∀ p, ¬ may p → p.Same s t

/-- The machine runs: no fault is latched and the mode is RUNNING (10_state.md R30, R31). -/
def State.Running (s : State) : Prop := s.fault = none ∧ s.waiting = false

/-- The instruction at `pc`, when both its bytes are in memory and its word is legal (40_cycle_dispatch.md R95, R96). -/
def State.fetched (s : State) : Option Instr :=
  match s.fetchWord with
  | none => none
  | some w =>
    match decode w with
    | .ok i => some i
    | .error _ => none

/-- The state the instruction of a RUNNING step sees: `changed` cleared and the timers ticked (40_cycle_dispatch.md
R90, lines 1 and 3). -/
def State.entered (s : State) : State :=
  { s with changed := false
           dt := if s.dt = 0 then 0 else s.dt - 1
           st := if s.st = 0 then 0 else s.st - 1 }

/-- The `pc` a condition records (60_exceptions.md R170). -/
def Fault.pc : Fault → Word
  | .stackOverflow pc => pc
  | .stackUnderflow pc => pc
  | .illegalOpcode pc _ => pc
  | .addressOutOfRange pc _ => pc
  | .keypadIndexOutOfRange pc _ => pc

/-- Sprite row `row`, sprite bit `bit` of a `draw` at `(Vx, Vy)` lands on pixel `(r, c)`: row `(Vy + row) mod 32`,
column `(Vx + bit) mod 64` (44_display.md R151). -/
def LandsOn (vx vy : Byte) (row bit : Nat) (r : Fin 32) (c : Fin 64) : Prop :=
  r.val = (vy.toNat + row) % 32 ∧ c.val = (vx.toNat + bit) % 64

/-- Row `row` of the sprite at `I` has bit index `bit` set, the most significant bit being index 0 (44_display.md
R151). -/
def State.SpriteSet (s : State) (row bit : Nat) : Prop :=
  ∃ b, s.readByte (s.i.toNat + row) = some b ∧ b.getLsbD (7 - bit) = true

/-- What holds in every reachable state (10_state.md R36; the bounds on registers, timers, `I`, `sp` and `wait_reg` hold
by their types), and the canonical form of memory (log 27). -/
structure State.Inv (s : State) : Prop where
  /-- Memory keeps its canonical form (log 27). -/
  memWf : s.mem.wf = true
  /-- `pc` is in 0..0x10FE. -/
  pcLe : s.pc.toNat ≤ 0x10FE
  /-- Every stack slot is in 0..0x1000. -/
  slotLe : ∀ k : Fin 16, s.stack[k].toNat ≤ 0x1000
  /-- In AWAITING_KEY `changed` is already 0. -/
  waitingUnchanged : s.waiting = true → s.changed = false
  /-- A latched condition records the `pc` the machine is at, and left `changed` clear (log 12). -/
  faultAtPc : ∀ f, s.fault = some f → f.pc = s.pc ∧ s.changed = false

end Sys2Proof.Machine
end

