-- ==== Sys2Proof/Certificates/Slice0/Obligations.lean ====
section
/-! DEFINITION. The statements for the provers. `OnlyChanges s t may` is the frame: every part of the state but those
`may` names is as before. -/

open Sys2Proof Sys2Proof.Machine

/-! ## Encoding -/

/-- 30_encoding.md section 4 (the map is the spec's decision D1, log 1): no bit of an instruction is lost. -/
def Obligations.DecodeOfEncodeIsIdentity : Prop :=
  ∀ i : Instr, i.wellFormed = true → decode (encode i) = .ok i

/-- The other direction: a legal word is the encoding of what it decodes to, but for the ignored field of the shifts,
which is assembled as 0 (30_encoding.md sections 5 and 6; log 1, log 23). -/
def Obligations.LegalWordReencodes : Prop :=
  ∀ (w : Word) (i : Instr), decode w = .ok i → i.wellFormed = true ∧
    ((∃ x, i = .shr x ∨ i = .shl x) → encode i = w &&& 0xFF0F) ∧
    ((∀ x, i ≠ .shr x ∧ i ≠ .shl x) → encode i = w)

/-- An instruction is selected exactly when a row of the opcode map matches (30_encoding.md section 4; log 1). -/
def Obligations.DecoderFollowsOpcodeMap : Prop :=
  ∀ w : Word,
    (∀ i, decode w = .ok i → ∃ row ∈ opcodeRows, row.selects w = true ∧ row.mnemonic = i.mnemonic) ∧
    (∀ row ∈ opcodeRows, row.selects w = true → ∃ i, decode w = .ok i ∧ i.mnemonic = row.mnemonic)

/-- No word satisfies two rows of the opcode map (30_encoding.md section 4, an inference of the spec's; log 1). -/
def Obligations.OpcodeRowsNeverOverlap : Prop :=
  ∀ (w : Word) (a b : OpcodeRow), a ∈ opcodeRows → b ∈ opcodeRows → a.selects w = true → b.selects w = true → a = b

/-- The illegal words are exactly those of the table of 30_encoding.md section 5 (the spec's decisions D2, D3; log 2),
with OP, N, NN read off the number; the rejection names the word. -/
def Obligations.IllegalWordsAreTheTable : Prop :=
  ∀ w : Word,
    ((∀ i, decode w ≠ .ok i) ↔
      (w.toNat / 4096 = 0 ∧ w.toNat ≠ 0x00E0 ∧ w.toNat ≠ 0x00EE) ∨
      (w.toNat / 4096 = 5 ∧ w.toNat % 16 ≠ 0) ∨
      (w.toNat / 4096 = 8 ∧ w.toNat % 16 ∈ [8, 9, 0xA, 0xB, 0xC, 0xD, 0xF]) ∨
      (w.toNat / 4096 = 9 ∧ w.toNat % 16 ≠ 0) ∨
      (w.toNat / 4096 = 0xE ∧ w.toNat % 256 ∉ [0x9E, 0xA1]) ∨
      (w.toNat / 4096 = 0xF ∧ w.toNat % 256 ∉ [0x07, 0x0A, 0x15, 0x18, 0x1E, 0x29, 0x33, 0x55, 0x65])) ∧
    ((∀ i, decode w ≠ .ok i) → decode w = .error (.illegalOpcode w))

/-- Every row of the opcode map, every value of its fields: the word `match | fields` decodes to that row's instruction
with those operands; the Y field of the shifts is ignored (30_encoding.md sections 2 to 5; log 1). -/
def Obligations.EveryRowDecodesItsOperands : Prop :=
  ∀ (x y : RegIdx) (n : Nat) (nn : Byte) (nnn : Addr12), n < 16 →
    let word (k : Nat) : Word := BitVec.ofNat 16 k
    let xy (op minor : Nat) : Word := word (op + x.val * 256 + y.val * 16 + minor)
    let xk (op : Nat) : Word := word (op + x.val * 256 + nn.toNat)
    let xm (op : Nat) : Word := word (op + x.val * 256)
    let ad (op : Nat) : Word := word (op + nnn.toNat)
    (decode 0x00E0 = .ok .clearScreen ∧ decode 0x00EE = .ok .ret) ∧
    (decode (ad 0x1000) = .ok (.jump nnn) ∧ decode (ad 0x2000) = .ok (.call nnn) ∧
      decode (ad 0xA000) = .ok (.loadI nnn) ∧ decode (ad 0xB000) = .ok (.jumpOffset nnn)) ∧
    (decode (xk 0x3000) = .ok (.skipEqImm x nn) ∧ decode (xk 0x4000) = .ok (.skipNeImm x nn) ∧
      decode (xk 0x6000) = .ok (.loadImm x nn) ∧ decode (xk 0x7000) = .ok (.addImm x nn) ∧
      decode (xk 0xC000) = .ok (.rand x nn)) ∧
    (decode (xy 0x5000 0) = .ok (.skipEqReg x y) ∧ decode (xy 0x9000 0) = .ok (.skipNeReg x y) ∧
      decode (xy 0x8000 0) = .ok (.move x y) ∧ decode (xy 0x8000 1) = .ok (.or x y) ∧
      decode (xy 0x8000 2) = .ok (.and x y) ∧ decode (xy 0x8000 3) = .ok (.xor x y) ∧
      decode (xy 0x8000 4) = .ok (.add x y) ∧ decode (xy 0x8000 5) = .ok (.sub x y) ∧
      decode (xy 0x8000 6) = .ok (.shr x) ∧ decode (xy 0x8000 7) = .ok (.subn x y) ∧
      decode (xy 0x8000 0xE) = .ok (.shl x)) ∧
    decode (xy 0xD000 n) = .ok (.draw x y n) ∧
    (decode (xm 0xE09E) = .ok (.skipKey x) ∧ decode (xm 0xE0A1) = .ok (.skipNokey x) ∧
      decode (xm 0xF007) = .ok (.loadDt x) ∧ decode (xm 0xF00A) = .ok (.waitKey x) ∧
      decode (xm 0xF015) = .ok (.setDt x) ∧ decode (xm 0xF018) = .ok (.setSt x) ∧
      decode (xm 0xF01E) = .ok (.addI x) ∧ decode (xm 0xF029) = .ok (.fontAddr x) ∧
      decode (xm 0xF033) = .ok (.bcd x) ∧ decode (xm 0xF055) = .ok (.storeRegs x) ∧
      decode (xm 0xF065) = .ok (.loadRegs x))

/-- A sanity check: words the spec writes out (95_test_vectors.md; log 1) decode to the instructions they stand for. -/
def Obligations.WrittenOutWordsDecode : Prop :=
  decodeBytes [0x00, 0xE0] = .ok (.clearScreen, []) ∧
  decodeBytes [0x22, 0x0A] = .ok (.call 0x20A, []) ∧
  decodeBytes [0x82, 0x76] = .ok (.shr 2, []) ∧
  decodeBytes [0xA3, 0x00] = .ok (.loadI 0x300, []) ∧
  decodeBytes [0xD0, 0x12] = .ok (.draw 0 1 2, []) ∧
  decodeBytes [0xE5, 0xA1] = .ok (.skipNokey 5, []) ∧
  decodeBytes [0x51, 0x21] = .error (.illegalOpcode 0x5121)

/-- 20_memory.md R53: instruction fetch is big-endian. -/
def Obligations.FetchIsBigEndian : Prop :=
  ∀ s : State, s.pc.toNat ≤ 0xFFE → ∃ hi lo w,
    s.readByte s.pc.toNat = some hi ∧ s.readByte (s.pc.toNat + 1) = some lo ∧
    s.fetchWord = some w ∧ w.toNat = hi.toNat * 256 + lo.toNat

/-! ## The step -/

/-- When the two bytes at `pc` decode to `i`, the step of a RUNNING machine is `exec i` of the state with `changed`
cleared and the timers ticked (40_cycle_dispatch.md section 1). -/
def Obligations.StepRunsTheDecodedInstruction : Prop :=
  ∀ (s : State) (hi lo : Byte) (i : Instr), s.Running →
    s.readByte s.pc.toNat = some hi → s.readByte (s.pc.toNat + 1) = some lo →
    decodeBytes [hi, lo] = .ok (i, []) → step s = exec i s.entered

/-- The model's own `withFetchWord` (log 29): the next step runs the placed word, and only the two bytes at its address,
`pc`, the mode and the fault latch can differ from the state given. -/
def Obligations.PlacedWordIsRunNext : Prop :=
  ∀ (s : State) (w : Word) (i : Instr), decode w = .ok i →
    let t := s.withFetchWord 16 w.toNat
    step t = exec i t.entered ∧
    OnlyChanges s t fun p => p = .byte t.pc.toNat ∨ p = .byte (t.pc.toNat + 1) ∨ p = .pc ∨ p = .waiting ∨ p = .fault

/-- On a faulted machine every step returns the latched condition and changes nothing (40_cycle_dispatch.md section 1,
60_exceptions.md section 5; the spec's decision D13, log 12). -/
def Obligations.FaultedMachineNeverMoves : Prop :=
  ∀ (s : State) (f : Fault), s.fault = some f → step s = .fault f ∧ cycle s = some (s, .fault f)

/-- A step never refuses, and stops only on a latched fault (40_cycle_dispatch.md section 1; log 12). -/
def Obligations.StepStopsOnlyOnALatchedFault : Prop :=
  ∀ s : State, (s.fault = none ∧ ∃ t, step s = .next t) ∨ ∃ f, s.fault = some f ∧ step s = .fault f

/-- 40_cycle_dispatch.md R92: after a step `changed = 1` if and only if that step executed `clear-screen` or `draw` to
completion. -/
def Obligations.ChangedTellsWhatTheStepDrew : Prop :=
  ∀ s t : State, step s = .next t →
    (t.changed = true ↔ s.waiting = false ∧ t.fault = none ∧ ∃ i, s.fetched = some i ∧ i.touchesDisplay = true)

/-- 40_cycle_dispatch.md R93: the AWAITING_KEY step. In a state no run reaches, where `changed` is set in this mode, the
step clears it (line 1 of the step). -/
def Obligations.AwaitingKeyStep : Prop :=
  ∀ s : State, s.fault = none → s.waiting = true →
    (∀ k : RegIdx, s.keyAt k = true → (∀ j < k, s.keyAt j = false) → ∃ t, step s = .next t ∧
      (t.reg s.waitReg).toNat = k.val ∧ t.waiting = false ∧ t.changed = false ∧
      OnlyChanges s t fun p => p = .reg s.waitReg ∨ p = .waiting ∨ p = .changed) ∧
    ((∀ k, s.keyAt k = false) → ∃ t, step s = .next t ∧ t.changed = false ∧ OnlyChanges s t (· = .changed)) ∧
    ((∀ k, s.keyAt k = false) → s.changed = false → step s = .next s)

/-- 40_cycle_dispatch.md R94: both timers tick once in every RUNNING step, floor at 0, before its instruction reads or
writes a timer, whatever the step then does. -/
def Obligations.TimersTickBeforeTheInstruction : Prop :=
  ∀ s : State, s.Running → ∃ t, step s = .next t ∧
    ((∀ x, s.fetched ≠ some (.setDt x)) → t.dt.toNat = s.dt.toNat - 1) ∧
    ((∀ x, s.fetched ≠ some (.setSt x)) → t.st.toNat = s.st.toNat - 1) ∧
    (∀ x, s.fetched = some (.setDt x) → t.dt = s.reg x) ∧
    (∀ x, s.fetched = some (.setSt x) → t.st = s.reg x) ∧
    (∀ x, s.fetched = some (.loadDt x) → (t.reg x).toNat = s.dt.toNat - 1)

/-- A fetch with `pc > 0xFFE` raises `AddressOutOfRange` with the first address out of range, and a word that matches no
row raises `IllegalOpcode` with `pc` and the word; `changed` is cleared and the timers have ticked, `pc` stays
(40_cycle_dispatch.md section 1, 60_exceptions.md section 1; the spec's decisions D5, D13, log 4, log 12). -/
def Obligations.FetchAndDecodeFailuresRaise : Prop :=
  ∀ s : State, s.Running →
    (0xFFE < s.pc.toNat → step s = .next { s.entered with
      fault := some (.addressOutOfRange s.pc (if s.pc.toNat ≤ 0xFFF then s.pc.toNat + 1 else s.pc.toNat)) }) ∧
    (∀ hi lo : Byte, s.readByte s.pc.toNat = some hi → s.readByte (s.pc.toNat + 1) = some lo →
      (∀ i, decodeBytes [hi, lo] ≠ .ok (i, [])) →
      step s = .next { s.entered with fault := some (.illegalOpcode s.pc (hi ++ lo)) })

/-- A step that raises leaves exactly the `changed` clear, the tick and the latch, the condition records the `pc` the
machine stays at, and the host gets it as the result; a step that raises nothing gives the host `Ok`
(40_cycle_dispatch.md sections 1 and 3, 60_exceptions.md section 4; the spec's decision D13, log 12). -/
def Obligations.RaisingStepIsPrecise : Prop :=
  ∀ s t : State, step s = .next t →
    (∀ f, t.fault = some f →
      s.waiting = false ∧ f.pc = s.pc ∧ t = { s.entered with fault := some f } ∧ cycle s = some (t, .fault f)) ∧
    (t.fault = none → cycle s = some (t, .ok))

/-- The next `pc` of every instruction, and what leaves it unchanged (40_cycle_dispatch.md section 2; what a raising and
a faulted step leave is the spec's decision D13, log 12). -/
def Obligations.NextPcTable : Prop :=
  (∀ (i : Instr) (s t : State), s.fault = none → exec i s = .next t →
    (t.fault = none → t.pc = i.nextPc s) ∧ (t.fault ≠ none → t.pc = s.pc)) ∧
  (∀ s t : State, step s = .next t → s.waiting = true ∨ t.fault ≠ none → t.pc = s.pc) ∧
  (∀ s : State, s.fault ≠ none → ∀ t, step s ≠ .next t) ∧
  (∀ s : State, s.pc.toNat ≤ 0xFFE → (s.pc + 2).toNat = s.pc.toNat + 2 ∧ (s.pc + 4).toNat = s.pc.toNat + 4)

/-- The two modes, what enters and leaves them, what else happens, and who else may change the mode
(40_cycle_dispatch.md section 4; that a latched condition stops both modes is the spec's decision D13, log 12, and what
reset does D14, log 13). In AWAITING_KEY a step clears `changed`, which in every reachable state is already clear there:
with no key pressed such a state is left as it is. -/
def Obligations.ModeStateMachine : Prop :=
  (∀ s t : State, step s = .next t →
    (s.waiting = false → (t.waiting = true ↔ ∃ x, s.fetched = some (.waitKey x))) ∧
    (∀ x, s.waiting = false → s.fetched = some (.waitKey x) →
      t.waitReg = x ∧ t.pc = s.pc + 2 ∧ t.dt = s.entered.dt ∧ t.st = s.entered.st) ∧
    (∀ i, s.waiting = false → s.fetched = some i → exec i s.entered = .next t) ∧
    (s.waiting = true → (t.waiting = false ↔ ∃ k, s.keyAt k = true) ∧ t.fault = none ∧ t.changed = false ∧
      OnlyChanges s t fun p => p = .reg s.waitReg ∨ p = .waiting ∨ p = .changed) ∧
    (∀ k : RegIdx, s.waiting = true → s.keyAt k = true → (∀ j < k, s.keyAt j = false) →
      (t.reg s.waitReg).toNat = k.val) ∧
    (s.waiting = true → (∀ k, s.keyAt k = false) → OnlyChanges s t (· = .changed) ∧ (s.changed = false → t = s)) ∧
    (t.fault ≠ none → t.waiting = s.waiting)) ∧
  (∀ s : State, s.fault ≠ none → ∀ t, step s ≠ .next t) ∧
  (newMachine.waiting = false ∧ ∀ s : State, s.hostReset.waiting = false) ∧
  (∀ (s : State) (bytes : List Byte) (k : RegIdx),
    (s.load bytes).1.waiting = s.waiting ∧ (s.keyDown k).waiting = s.waiting ∧ (s.keyUp k).waiting = s.waiting ∧
      (s.injectRandom bytes).waiting = s.waiting)

/-! ## Control flow -/

/-- `return` (41_control_flow.md, return): pops into `pc` with nothing added, the slot keeps its value; on an empty
stack it raises `StackUnderflow` (the latch is the spec's decision D13, log 12; slots are D12, log 11). -/
def Obligations.ReturnPopsIntoPc : Prop :=
  ∀ s : State,
    (∀ k : Fin 16, s.sp.val = k.val + 1 → ∃ t, exec .ret s = .next t ∧
      t.pc = s.stack[k] ∧ t.sp.val = k.val ∧ OnlyChanges s t fun p => p = .pc ∨ p = .sp) ∧
    (s.sp.val = 0 → exec .ret s = .next { s with fault := some (.stackUnderflow s.pc) })

/-- The effect of `jump` (41_control_flow.md, jump). -/
def Obligations.JumpLoadsPc : Prop :=
  ∀ (s : State) (nnn : Addr12), ∃ t, exec (.jump nnn) s = .next t ∧
    t.pc.toNat = nnn.toNat ∧ OnlyChanges s t (· = .pc)

/-- `call` (41_control_flow.md, call): pushes `pc + 2` and jumps; at depth 16 it raises `StackOverflow` (the latch is
the spec's decision D13, log 12; slots are D12, log 11). -/
def Obligations.CallPushesReturnAddress : Prop :=
  ∀ (s : State) (nnn : Addr12),
    (∀ k : Fin 16, s.sp.val = k.val → ∃ t, exec (.call nnn) s = .next t ∧
      t.stack[k] = s.pc + 2 ∧ t.sp.val = k.val + 1 ∧ t.pc.toNat = nnn.toNat ∧
      OnlyChanges s t fun p => p = .pc ∨ p = .sp ∨ p = .slot k) ∧
    (s.sp.val = 16 → exec (.call nnn) s = .next { s with fault := some (.stackOverflow s.pc) })

/-- The effect of the skips on an immediate (41_control_flow.md, skip-eq-imm and skip-ne-imm). -/
def Obligations.SkipOnImmediate : Prop :=
  ∀ (s : State) (x : RegIdx) (nn : Byte),
    (∃ t, exec (.skipEqImm x nn) s = .next t ∧
      t.pc = (if s.reg x = nn then s.pc + 4 else s.pc + 2) ∧ OnlyChanges s t (· = .pc)) ∧
    (∃ t, exec (.skipNeImm x nn) s = .next t ∧
      t.pc = (if s.reg x = nn then s.pc + 2 else s.pc + 4) ∧ OnlyChanges s t (· = .pc))

/-- The effect of the skips on two registers (41_control_flow.md, skip-eq-reg and skip-ne-reg); `X = Y` always skips, and never skips. -/
def Obligations.SkipOnRegisters : Prop :=
  ∀ (s : State) (x y : RegIdx),
    (∃ t, exec (.skipEqReg x y) s = .next t ∧
      t.pc = (if s.reg x = s.reg y then s.pc + 4 else s.pc + 2) ∧ (x = y → t.pc = s.pc + 4) ∧
      OnlyChanges s t (· = .pc)) ∧
    (∃ t, exec (.skipNeReg x y) s = .next t ∧
      t.pc = (if s.reg x = s.reg y then s.pc + 2 else s.pc + 4) ∧ (x = y → t.pc = s.pc + 2) ∧
      OnlyChanges s t (· = .pc))

/-- `jump-offset` (41_control_flow.md, jump-offset): always register 0, the sum is not reduced (that `pc` holds it is
the spec's decision D4, log 3). -/
def Obligations.JumpOffsetAddsRegisterZero : Prop :=
  ∀ (s : State) (nnn : Addr12), ∃ t, exec (.jumpOffset nnn) s = .next t ∧
    t.pc.toNat = nnn.toNat + (s.reg 0).toNat ∧ OnlyChanges s t (· = .pc)

/-- A call, anything that leaves the stack as the call left it, then a return: `pc` is the call site plus 2 and the
depth is the one before the call (95_test_vectors.md S6; slots are the spec's decision D12, log 11). -/
def Obligations.ReturnUndoesCall : Prop :=
  ∀ (s t u : State) (nnn : Addr12), s.sp.val < 16 → exec (.call nnn) s = .next t →
    u.sp = t.sp → u.stack = t.stack →
    ∃ r, exec .ret u = .next r ∧ r.pc = s.pc + 2 ∧ r.sp = s.sp

/-! ## Registers and arithmetic -/

/-- The effect of `load-imm`, `add-imm` (no flag update), `move` (42_alu.md). -/
def Obligations.LoadAddImmediateAndMove : Prop :=
  ∀ (s : State) (x y : RegIdx) (nn : Byte),
    (∃ t, exec (.loadImm x nn) s = .next t ∧ t.reg x = nn ∧ t.pc = s.pc + 2 ∧
      OnlyChanges s t fun p => p = .pc ∨ p = .reg x) ∧
    (∃ t, exec (.addImm x nn) s = .next t ∧ (t.reg x).toNat = ((s.reg x).toNat + nn.toNat) % 256 ∧
      t.pc = s.pc + 2 ∧ OnlyChanges s t fun p => p = .pc ∨ p = .reg x) ∧
    (∃ t, exec (.move x y) s = .next t ∧ t.reg x = s.reg y ∧ t.pc = s.pc + 2 ∧
      OnlyChanges s t fun p => p = .pc ∨ p = .reg x)

/-- The effect of `or`, `and`, `xor`, bit by bit, with no flag (42_alu.md; no flag is the spec's decision D9, log 8). -/
def Obligations.LogicIsBitwise : Prop :=
  ∀ (s : State) (x y : RegIdx),
    (∃ t, exec (.or x y) s = .next t ∧ t.pc = s.pc + 2 ∧
      (∀ k < 8, (t.reg x).getLsbD k = ((s.reg x).getLsbD k || (s.reg y).getLsbD k)) ∧
      OnlyChanges s t fun p => p = .pc ∨ p = .reg x) ∧
    (∃ t, exec (.and x y) s = .next t ∧ t.pc = s.pc + 2 ∧
      (∀ k < 8, (t.reg x).getLsbD k = ((s.reg x).getLsbD k && (s.reg y).getLsbD k)) ∧
      OnlyChanges s t fun p => p = .pc ∨ p = .reg x) ∧
    (∃ t, exec (.xor x y) s = .next t ∧ t.pc = s.pc + 2 ∧
      (∀ k < 8, (t.reg x).getLsbD k = ((s.reg x).getLsbD k ^^ (s.reg y).getLsbD k)) ∧
      OnlyChanges s t fun p => p = .pc ∨ p = .reg x)

/-- `add` (42_alu.md, add): the flag is the carry out of the sum of the old operands, and with `X = 15` it is what
remains (the order of the two writes is the spec's decision D8, log 7). -/
def Obligations.AddWritesSumThenCarry : Prop :=
  ∀ (s : State) (x y : RegIdx), ∃ t, exec (.add x y) s = .next t ∧
    t.reg 15 = (if 255 < (s.reg x).toNat + (s.reg y).toNat then 1 else 0) ∧
    (x ≠ 15 → (t.reg x).toNat + 256 * (t.reg 15).toNat = (s.reg x).toNat + (s.reg y).toNat) ∧
    t.pc = s.pc + 2 ∧ OnlyChanges s t fun p => p = .pc ∨ p = .reg x ∨ p = .reg 15

/-- `sub` (42_alu.md, sub): a strict comparison goes to `VF` first, then the difference modulo 256 of the registers as
they then are; the four cases of register 15 (the spec's decision D8, log 7). -/
def Obligations.SubWritesFlagThenDifference : Prop :=
  ∀ (s : State) (x y : RegIdx),
    let vx := (s.reg x).toNat
    let vy := (s.reg y).toNat
    let f := if vy < vx then 1 else 0
    ∃ t, exec (.sub x y) s = .next t ∧
      (x ≠ 15 → (t.reg 15).toNat = f) ∧
      (x ≠ 15 → y ≠ 15 → (t.reg x).toNat = (256 + vx - vy) % 256) ∧
      (x ≠ 15 → y = 15 → (t.reg x).toNat = (256 + vx - f) % 256) ∧
      (x = 15 → y ≠ 15 → (t.reg x).toNat = (256 + f - vy) % 256) ∧
      (x = 15 → y = 15 → t.reg x = 0) ∧
      t.pc = s.pc + 2 ∧ OnlyChanges s t fun p => p = .pc ∨ p = .reg x ∨ p = .reg 15

/-- `subn` (42_alu.md, subn): as `sub` with minuend and subtrahend exchanged (the spec's decision D8, log 7). -/
def Obligations.SubnWritesFlagThenDifference : Prop :=
  ∀ (s : State) (x y : RegIdx),
    let vx := (s.reg x).toNat
    let vy := (s.reg y).toNat
    let f := if vx < vy then 1 else 0
    ∃ t, exec (.subn x y) s = .next t ∧
      (x ≠ 15 → (t.reg 15).toNat = f) ∧
      (x ≠ 15 → y ≠ 15 → (t.reg x).toNat = (256 + vy - vx) % 256) ∧
      (x ≠ 15 → y = 15 → (t.reg x).toNat = (256 + f - vx) % 256) ∧
      (x = 15 → y ≠ 15 → (t.reg x).toNat = (256 + vy - f) % 256) ∧
      (x = 15 → y = 15 → t.reg x = 0) ∧
      t.pc = s.pc + 2 ∧ OnlyChanges s t fun p => p = .pc ∨ p = .reg x ∨ p = .reg 15

/-- `shr` and `shl` (42_alu.md, shr and shl): the bit shifted out goes to `VF` first, then the register as it then is
is shifted by one (`X = 15` is the spec's decision D8, log 7). -/
def Obligations.ShiftsWriteTheBitShiftedOut : Prop :=
  ∀ (s : State) (x : RegIdx),
    let vx := (s.reg x).toNat
    (∃ t, exec (.shr x) s = .next t ∧
      (x ≠ 15 → (t.reg 15).toNat = vx % 2 ∧ (t.reg x).toNat = vx / 2) ∧
      (x = 15 → t.reg 15 = 0) ∧
      t.pc = s.pc + 2 ∧ OnlyChanges s t fun p => p = .pc ∨ p = .reg x ∨ p = .reg 15) ∧
    (∃ t, exec (.shl x) s = .next t ∧
      (x ≠ 15 → (t.reg 15).toNat = vx / 128 ∧ (t.reg x).toNat = vx * 2 % 256) ∧
      (x = 15 → (t.reg 15).toNat = 2 * (vx / 128)) ∧
      t.pc = s.pc + 2 ∧ OnlyChanges s t fun p => p = .pc ∨ p = .reg x ∨ p = .reg 15)

/-- `rand` (42_alu.md, rand; 60_exceptions.md section 8): for every byte the random source supplies, that byte AND the
mask; one byte is consumed. The two fields of the random source are the model's own (log 17); nothing rests on the
opaque value. -/
def Obligations.RandMasksTheSuppliedByte : Prop :=
  ∀ (s : State) (x : RegIdx) (nn : Byte), ∃ t, exec (.rand x nn) s = .next t ∧
    t.reg x = s.rnd &&& nn ∧
    (∀ b rest, s.rndSeq = b :: rest → t.reg x = b &&& nn ∧ t.rndSeq = rest) ∧
    (s.rndSeq = [] → t.rndSeq = []) ∧ t.rndDraws = s.rndDraws + 1 ∧
    (∀ k, (t.reg x).getLsbD k = true → nn.getLsbD k = true) ∧
    t.pc = s.pc + 2 ∧ OnlyChanges s t fun p => p = .pc ∨ p = .reg x ∨ p = .rndSeq ∨ p = .rndDraws

/-! ## The address register and memory -/

/-- The effect of `load-i` and `font-addr`: the whole 8-bit value times 5 (43_index_memory.md). -/
def Obligations.LoadIndexAndFontAddress : Prop :=
  ∀ (s : State) (nnn : Addr12) (x : RegIdx),
    (∃ t, exec (.loadI nnn) s = .next t ∧ t.i.toNat = nnn.toNat ∧ t.pc = s.pc + 2 ∧
      OnlyChanges s t fun p => p = .pc ∨ p = .index) ∧
    (∃ t, exec (.fontAddr x) s = .next t ∧ t.i.toNat = (s.reg x).toNat * 5 ∧ t.pc = s.pc + 2 ∧
      OnlyChanges s t fun p => p = .pc ∨ p = .index)

/-- `add-i` (43_index_memory.md, add-i): `I` first, then the flag from the `I` just written; the old value of register
15 is the addend when `X = 15` (wrap and strict bound are the spec's decision D7, log 6; order D8, log 7). -/
def Obligations.AddIndexThenBoundFlag : Prop :=
  ∀ (s : State) (x : RegIdx), ∃ t, exec (.addI x) s = .next t ∧
    t.i.toNat = (s.i.toNat + (s.reg x).toNat) % 65536 ∧
    t.reg 15 = (if 0x0F00 < t.i.toNat then 1 else 0) ∧
    t.pc = s.pc + 2 ∧ OnlyChanges s t fun p => p = .pc ∨ p = .index ∨ p = .reg 15

/-- `bcd` (43_index_memory.md, bcd) when its three addresses exist (that a larger `I` raises is the spec's decision D5,
log 4): three decimal digits, hundreds first. -/
def Obligations.BcdStoresThreeDigits : Prop :=
  ∀ (s : State) (x : RegIdx), s.i.toNat ≤ 0xFFD → ∃ t h z o, exec (.bcd x) s = .next t ∧
    t.readByte s.i.toNat = some h ∧ t.readByte (s.i.toNat + 1) = some z ∧ t.readByte (s.i.toNat + 2) = some o ∧
    h.toNat ≤ 2 ∧ z.toNat ≤ 9 ∧ o.toNat ≤ 9 ∧ 100 * h.toNat + 10 * z.toNat + o.toNat = (s.reg x).toNat ∧
    t.pc = s.pc + 2 ∧ OnlyChanges s t fun p => p = .pc ∨ ∃ k < 3, p = .byte (s.i.toNat + k)

/-- `store-regs` (43_index_memory.md, store-regs) when its addresses exist (D5, log 4): registers 0 to `X` inclusive;
`I` is unchanged (D9, log 8). -/
def Obligations.StoreRegsCopiesRegisters : Prop :=
  ∀ (s : State) (x : RegIdx), s.i.toNat + x.val ≤ 0xFFF → ∃ t, exec (.storeRegs x) s = .next t ∧
    (∀ k : RegIdx, k ≤ x → t.readByte (s.i.toNat + k.val) = some (s.reg k)) ∧
    t.pc = s.pc + 2 ∧
    OnlyChanges s t fun p => p = .pc ∨ ∃ k : RegIdx, k ≤ x ∧ p = .byte (s.i.toNat + k.val)

/-- `load-regs` (43_index_memory.md, load-regs) when its addresses exist (D5, log 4): registers 0 to `X` inclusive;
`I` and memory are unchanged (D9, log 8). -/
def Obligations.LoadRegsCopiesMemory : Prop :=
  ∀ (s : State) (x : RegIdx), s.i.toNat + x.val ≤ 0xFFF → ∃ t, exec (.loadRegs x) s = .next t ∧
    (∀ k : RegIdx, k ≤ x → s.readByte (s.i.toNat + k.val) = some (t.reg k)) ∧
    t.pc = s.pc + 2 ∧ OnlyChanges s t fun p => p = .pc ∨ ∃ k : RegIdx, k ≤ x ∧ p = .reg k

/-- Registers stored, then loaded with the same `I` from a memory left alone in between, are as they were
(95_test_vectors.md, properties, item 10). -/
def Obligations.StoreThenLoadRestoresRegisters : Prop :=
  ∀ (s t u : State) (x : RegIdx), s.i.toNat + x.val ≤ 0xFFF → exec (.storeRegs x) s = .next t →
    u.mem = t.mem → u.i = s.i →
    ∃ r, exec (.loadRegs x) u = .next r ∧ ∀ k : RegIdx, k ≤ x → r.reg k = s.reg k

/-- Bytes stored by `store-regs` are the ones a later fetch assembles (20_memory.md section 9, an inference and the
decision D26 of the spec, log 25). -/
def Obligations.FetchSeesStoredBytes : Prop :=
  ∀ (s t u : State) (x k j : RegIdx), s.i.toNat + x.val ≤ 0xFFF → exec (.storeRegs x) s = .next t →
    j.val = k.val + 1 → j ≤ x → u.mem = t.mem → u.pc.toNat = s.i.toNat + k.val →
    ∃ w, u.fetchWord = some w ∧ w.toNat = (s.reg k).toNat * 256 + (s.reg j).toNat

/-- An instruction one of whose addresses is above 0xFFF raises `AddressOutOfRange` with the first such address and has
no other effect; a `draw` of no rows checks nothing (60_exceptions.md section 1; the spec's decisions D5, D13, D25,
log 4, log 12, log 24). -/
def Obligations.DataOutsideMemoryRaises : Prop :=
  ∀ (s : State) (x y : RegIdx) (n : Nat),
    let latched : State := { s with fault := some (.addressOutOfRange s.pc (max s.i.toNat 0x1000)) }
    (0xFFD < s.i.toNat → exec (.bcd x) s = .next latched) ∧
    (0xFFF < s.i.toNat + x.val → exec (.storeRegs x) s = .next latched ∧ exec (.loadRegs x) s = .next latched) ∧
    (0 < n → 0xFFF < s.i.toNat + (n - 1) → exec (.draw x y n) s = .next latched)

/-! ## The display -/

/-- 44_display.md R150: `clear-screen`, as an instruction and as a step at memory bytes 0x00, 0xE0 (which also ticks
the timers: `State.entered`). -/
def Obligations.ClearScreenZeroesTheDisplay : Prop :=
  decode 0x00E0 = .ok .clearScreen ∧
  (∀ s : State, ∃ t, exec .clearScreen s = .next t ∧
    (∀ r c, t.pixel r c = false) ∧ t.changed = true ∧ t.pc = s.pc + 2 ∧
    OnlyChanges s t fun p => p = .pc ∨ p = .changed ∨ ∃ r c, p = .pixel r c) ∧
  ∀ s : State, s.Running → s.readByte s.pc.toNat = some 0x00 → s.readByte (s.pc.toNat + 1) = some 0xE0 →
    ∃ t, step s = .next t ∧ (∀ r c, t.pixel r c = false) ∧ t.changed = true ∧ t.pc = s.pc + 2 ∧
      OnlyChanges s.entered t fun p => p = .pc ∨ p = .changed ∨ ∃ r c, p = .pixel r c

/-- `draw`, every form (44_display.md, draw): a sequence of values of `VF` and the display, one entry per sprite bit,
that starts with `VF = 0`, follows the loop body at each bit with the position registers read live, and ends in the
next state (bit order D10, log 9; live registers D8, log 7; collision is AND, C3, log 30; `n = 0` D25, log 24; range
D5, log 4). -/
def Obligations.DrawRunsBitByBit : Prop :=
  ∀ (s : State) (x y : RegIdx) (n : Nat), n = 0 ∨ s.i.toNat + (n - 1) ≤ 0xFFF →
    ∃ (t : State) (vf : Nat → Byte) (d : Nat → Fin 32 → Fin 64 → Bool), exec (.draw x y n) s = .next t ∧
      vf 0 = 0 ∧ d 0 = s.pixel ∧
      (∀ row < n, ∀ bit < 8, ∃ b, s.readByte (s.i.toNat + row) = some b ∧
        let m := 8 * row + bit
        let vx := if x = 15 then vf m else s.reg x
        let vy := if y = 15 then vf m else s.reg y
        let sb := b.getLsbD (7 - bit)
        ∀ r c, LandsOn vx vy row bit r c →
          vf (m + 1) = (if sb = true ∧ d m r c = true then vf m ||| 1 else vf m) ∧
          d (m + 1) r c = (d m r c ^^ sb) ∧ ∀ r' c', ¬ (r' = r ∧ c' = c) → d (m + 1) r' c' = d m r' c') ∧
      t.reg 15 = vf (8 * n) ∧ (∀ r c, t.pixel r c = d (8 * n) r c) ∧ t.changed = true ∧ t.pc = s.pc + 2 ∧
      OnlyChanges s t fun p => p = .pc ∨ p = .changed ∨ p = .reg 15 ∨ ∃ r c, p = .pixel r c

/-- `draw` with position registers other than `VF` (44_display.md, draw, corner case (c); bit order D10, log 9;
collision C3, log 30; `n = 0` D25, log 24; range D5, log 4; `DrawRunsBitByBit` has the forms with `VF`): every pixel a sprite bit lands on is XORed with it, no other pixel changes, and `VF` is 1
exactly when a set sprite bit landed on a set pixel. -/
def Obligations.DrawXorsTheSprite : Prop :=
  ∀ (s : State) (x y : RegIdx) (n : Nat), x ≠ 15 → y ≠ 15 → n < 16 → n = 0 ∨ s.i.toNat + (n - 1) ≤ 0xFFF →
    ∃ t, exec (.draw x y n) s = .next t ∧
      (∀ row < n, ∀ bit < 8, ∀ r c, LandsOn (s.reg x) (s.reg y) row bit r c →
        (s.SpriteSet row bit → t.pixel r c = !s.pixel r c) ∧ (¬ s.SpriteSet row bit → t.pixel r c = s.pixel r c)) ∧
      (∀ r c, (∀ row < n, ∀ bit < 8, ¬ LandsOn (s.reg x) (s.reg y) row bit r c) → t.pixel r c = s.pixel r c) ∧
      (t.reg 15 = 0 ∨ t.reg 15 = 1) ∧
      (t.reg 15 = 1 ↔ ∃ row < n, ∃ bit < 8, ∃ r c, LandsOn (s.reg x) (s.reg y) row bit r c ∧ s.SpriteSet row bit ∧
        s.pixel r c = true) ∧
      t.changed = true ∧ t.pc = s.pc + 2 ∧ t.i = s.i

/-- Drawing the same sprite twice at identical coordinates restores the display, and the second draw collides exactly
when the first left one of the sprite's set bits as a set pixel (44_display.md section on consequences, an inference of
the spec's; 95_test_vectors.md S5; bit order D10, log 9; collision C3, log 30; `n = 0` D25, log 24; range D5, log 4;
position registers other than `VF`, as that section has it). -/
def Obligations.DrawTwiceRestoresTheDisplay : Prop :=
  ∀ (s : State) (x y : RegIdx) (n : Nat), x ≠ 15 → y ≠ 15 → n < 16 → n = 0 ∨ s.i.toNat + (n - 1) ≤ 0xFFF →
    ∃ t u, exec (.draw x y n) s = .next t ∧ exec (.draw x y n) t = .next u ∧
      (∀ r c, u.pixel r c = s.pixel r c) ∧
      (u.reg 15 = 1 ↔ ∃ row < n, ∃ bit < 8, ∃ r c, LandsOn (s.reg x) (s.reg y) row bit r c ∧ s.SpriteSet row bit ∧
        t.pixel r c = true)

/-! ## The keypad and the timers -/

/-- `skip-key` and `skip-nokey` (45_keypad_timers.md): the level of the key the register's value names; above 15 they
raise `KeypadIndexOutOfRange` (the spec's decisions D6, D13, log 5, log 12). -/
def Obligations.SkipOnKeyLevel : Prop :=
  ∀ (s : State) (x : RegIdx),
    (∀ k : RegIdx, k.val = (s.reg x).toNat →
      (∃ t, exec (.skipKey x) s = .next t ∧ t.pc = (if s.keyAt k = true then s.pc + 4 else s.pc + 2) ∧
        OnlyChanges s t (· = .pc)) ∧
      (∃ t, exec (.skipNokey x) s = .next t ∧ t.pc = (if s.keyAt k = true then s.pc + 2 else s.pc + 4) ∧
        OnlyChanges s t (· = .pc))) ∧
    (15 < (s.reg x).toNat →
      exec (.skipKey x) s = .next { s with fault := some (.keypadIndexOutOfRange s.pc (s.reg x)) } ∧
      exec (.skipNokey x) s = .next { s with fault := some (.keypadIndexOutOfRange s.pc (s.reg x)) })

/-- The effect of `wait-key` (45_keypad_timers.md). -/
def Obligations.WaitKeyLatchesItsTarget : Prop :=
  ∀ (s : State) (x : RegIdx), ∃ t, exec (.waitKey x) s = .next t ∧
    t.waiting = true ∧ t.waitReg = x ∧ t.pc = s.pc + 2 ∧
    OnlyChanges s t fun p => p = .pc ∨ p = .waiting ∨ p = .waitReg

/-- The effect of `load-dt`, `set-dt`, `set-st`, on the timers as the instruction finds them (45_keypad_timers.md). -/
def Obligations.TimerInstructions : Prop :=
  ∀ (s : State) (x : RegIdx),
    (∃ t, exec (.loadDt x) s = .next t ∧ t.reg x = s.dt ∧ t.pc = s.pc + 2 ∧
      OnlyChanges s t fun p => p = .pc ∨ p = .reg x) ∧
    (∃ t, exec (.setDt x) s = .next t ∧ t.dt = s.reg x ∧ t.pc = s.pc + 2 ∧
      OnlyChanges s t fun p => p = .pc ∨ p = .delay) ∧
    (∃ t, exec (.setSt x) s = .next t ∧ t.st = s.reg x ∧ t.pc = s.pc + 2 ∧
      OnlyChanges s t fun p => p = .pc ∨ p = .sound)

/-! ## Memory -/

/-- Checked writes: they fail exactly when an address is above 0xFFF, and otherwise every read gives the byte written
last (20_memory.md sections 3 and 7; the check is the spec's decision D5, log 4). -/
def Obligations.ReadGivesTheLastWrite : Prop :=
  ∀ (m : Memory) (base : Nat) (bs : List Byte),
    (m.writeBytes base bs = none ↔ ∃ k < bs.length, 0xFFF < base + k) ∧
    ∀ m', m.writeBytes base bs = some m' →
      (∀ k (h : k < bs.length), m'.read (base + k) = some bs[k]) ∧
      (∀ a, (∀ k < bs.length, a ≠ base + k) → m'.read a = m.read a) ∧
      (∀ a, m'.read a = none ↔ 0xFFF < a)

/-- The model's canonical form (log 27): memories with equal reads are equal data. -/
def Obligations.CanonicalMemoriesWithEqualReadsAreEqual : Prop :=
  ∀ m m' : Memory, m.wf = true → m'.wf = true → (∀ a, m.read a = m'.read a) → m = m'

/-! ## Reset, load and the host -/

/-- The state after `new()` and after a reset of any state, item by item (10_state.md section 12, 70_reset_and_hazards.md
section 1; that reset is `new()` is the spec's decision D14, log 13; `pc` is D4, log 3; the font is named by its field,
log 10; `changed`, `wait_reg`, `fault` are D16, D21, D13, logs 15, 20, 12). The random source is outside the machine: a
reset keeps the model's two fields for it (log 13, log 17). -/
def Obligations.ResetState : Prop :=
  (∀ s : State, s = State.reset ∨ s = newMachine ∨ (∃ u : State, s = u.hostReset) →
    (∀ r, s.reg r = 0) ∧ s.i = 0 ∧ s.pc = 0x200 ∧ s.sp.val = 0 ∧ (∀ k : Fin 16, s.stack[k] = 0) ∧ s.dt = 0 ∧ s.st = 0 ∧
    Config.font.length = 80 ∧ (∀ a < 80, s.readByte a = Config.font[a]?) ∧
    (∀ a, 80 ≤ a → a ≤ 0xFFF → s.readByte a = some 0) ∧ (∀ a, 0xFFF < a → s.readByte a = none) ∧
    (∀ r c, s.pixel r c = false) ∧ s.changed = false ∧ (∀ k, s.keyAt k = false) ∧ s.waiting = false ∧
    s.waitReg = 0 ∧ s.fault = none) ∧
  ∀ u : State, u.hostReset.rndSeq = u.rndSeq ∧ u.hostReset.rndDraws = u.rndDraws

/-- `load` (70_reset_and_hazards.md section 2; truncation and report are the spec's decision D15, log 14): the first 3584
bytes go to 0x200 onward and nothing else changes. -/
def Obligations.LoadPlacesTheProgram : Prop :=
  ∀ (s : State) (bytes : List Byte),
    let t := (s.load bytes).1
    (∀ k (h : k < bytes.length), k < 3584 → t.readByte (0x200 + k) = some bytes[k]) ∧
    (OnlyChanges s t fun p => ∃ k < bytes.length, k < 3584 ∧ p = .byte (0x200 + k)) ∧
    (s.load bytes).2 = (if bytes.length ≤ 3584 then .ok else .romTooLarge bytes.length)

/-- The key levels are set by the host alone (10_state.md section 9). -/
def Obligations.KeysAreSetByTheHostOnly : Prop :=
  (∀ (s : State) (k : RegIdx), (s.keyDown k).keyAt k = true ∧ (s.keyUp k).keyAt k = false ∧
    OnlyChanges s (s.keyDown k) (· = .key k) ∧ OnlyChanges s (s.keyUp k) (· = .key k)) ∧
  (∀ (i : Instr) (s t : State), exec i s = .next t → t.key = s.key) ∧
  (∀ s t : State, step s = .next t → t.key = s.key) ∧
  (∀ k, State.reset.keyAt k = false)

/-- The host's contract (60_exceptions.md section 10; the spec's decision D17, log 16): a key index above 15 and a load
after the first step have no move; every other operation has one, and a step has one in every state. What each move does
is the operation's own effect, and only a step ends the time for loading and only a reset brings it back. That a second
load before the first step has a move is the model's choice (log 32). -/
def Obligations.HostContractViolationsHaveNoMove : Prop :=
  ∀ (m : Session) (k : Nat) (bytes : List Byte),
    (m.apply (.keyDown k) = none ↔ 15 < k) ∧ (m.apply (.keyUp k) = none ↔ 15 < k) ∧
    (m.apply (.load bytes) = none ↔ m.stepped = true) ∧
    (∃ m', m.apply (.injectRandom bytes) = some m' ∧ m'.state = m.state.injectRandom bytes) ∧
    (∃ m' r, m.apply .step = some m' ∧ cycle m.state = some (m'.state, r)) ∧
    (∃ m', m.apply .reset = some m' ∧ m'.state = m.state.hostReset) ∧
    (∀ m', m.apply (.load bytes) = some m' → m'.state = (m.state.load bytes).1) ∧
    (∀ m' (j : RegIdx), j.val = k → m.apply (.keyDown k) = some m' → m'.state = m.state.keyDown j) ∧
    (∀ m' (j : RegIdx), j.val = k → m.apply (.keyUp k) = some m' → m'.state = m.state.keyUp j) ∧
    (∀ e m', m.apply e = some m' → (m'.stepped = true ↔ e = .step ∨ (e ≠ .reset ∧ m.stepped = true)))

/-! ## Whole-machine rules -/

/-- The effect of an instruction is complete (00_scope.md section 5; the spec's decision D9, log 8): each kind of state
is written by the instructions the spec names and by no other. -/
def Obligations.NoInstructionWritesMoreThanItsEffect : Prop :=
  ∀ (i : Instr) (s t : State), exec i s = .next t →
    ((∀ nnn, i ≠ .call nnn) → t.stack = s.stack) ∧
    ((∀ nnn, i ≠ .call nnn) → i ≠ .ret → t.sp = s.sp) ∧
    (i.storesMemory = false → t.mem = s.mem) ∧
    (i.touchesDisplay = false → t.display = s.display ∧ t.changed = s.changed) ∧
    ((∀ nnn, i ≠ .loadI nnn) → (∀ x, i ≠ .addI x) → (∀ x, i ≠ .fontAddr x) → t.i = s.i) ∧
    ((∀ x, i ≠ .setDt x) → t.dt = s.dt) ∧ ((∀ x, i ≠ .setSt x) → t.st = s.st) ∧
    ((∀ x, i ≠ .waitKey x) → t.waiting = s.waiting ∧ t.waitReg = s.waitReg) ∧
    ((∀ x nn, i ≠ .rand x nn) → t.rndSeq = s.rndSeq ∧ t.rndDraws = s.rndDraws)

/-- A register changes only as a destination the instruction names, or as `VF` in the seven instructions that write the
flag (10_state.md sections 1 and 2; the spec's decision D9, log 8). -/
def Obligations.RegistersChangeOnlyAsDestinationOrFlag : Prop :=
  ∀ (i : Instr) (s t : State) (r : RegIdx), exec i s = .next t → i.hasDest r = false →
    (r = 15 → i.writesFlag = false) → t.reg r = s.reg r

/-- The sound timer drives nothing (60_exceptions.md section 8): two machines that differ only in `ST` take the same
step but for `ST`. -/
def Obligations.SoundTimerDrivesNothing : Prop :=
  ∀ (s t : State) (v : Byte), step s = .next t → ∃ v', step { s with st := v } = .next { t with st := v' }

/-- The invariant of every reachable state (10_state.md section 13, in part an inference of the spec's; canonical memory
is the model's, log 27; what it says of a latched condition is the spec's decision D13, log 12) is kept by every step from every state that has it. -/
def Obligations.StepKeepsTheInvariant : Prop :=
  ∀ s t : State, s.Inv → step s = .next t → t.Inv

/-- The invariant holds at reset (10_state.md sections 12 and 13; log 12, log 27). -/
def Obligations.ResetHasTheInvariant : Prop :=
  State.reset.Inv

/-- Every move of the host and every step keeps the invariant, from every session that has it, and so it holds after
every sequence of moves from `new()`, whatever programs are loaded and keys pressed (10_state.md section 13; host moves
log 16, log 32; what it says of a latched condition is the spec's decision D13, log 12; canonical memory log 27). -/
def Obligations.EverySessionHasTheInvariant : Prop :=
  (∀ (m m' : Session) (e : HostEvent), m.state.Inv → m.apply e = some m' → m'.state.Inv) ∧
  ∀ (es : List HostEvent) (m : Session), Session.run es Session.new = some m → m.state.Inv
end

