-- ==== Sys2Proof/Laws/Decode.lean ====
section
/-! SUPPORT. The fields of an assembled word, and a word assembled from its own fields (spec/30_encoding.md R72, R74). -/

namespace Sys2Proof

/-! ## Fields of an assembled word -/

@[simp] theorem fieldOP_encA (op : BitVec 4) (nnn : Addr12) : fieldOP (encA op nnn) = op := by
  apply BitVec.eq_of_getLsbD_eq
  intro i hi
  have : ¬ 12 + i < 12 := by omega
  simp only [fieldOP, encA, BitVec.getLsbD_append, BitVec.getLsbD_extractLsb']
  simp [hi]

@[simp] theorem fieldNNN_encA (op : BitVec 4) (nnn : Addr12) : fieldNNN (encA op nnn) = nnn := by
  apply BitVec.eq_of_getLsbD_eq
  intro i hi
  simp only [fieldNNN, encA, BitVec.getLsbD_append, BitVec.getLsbD_extractLsb']
  simp [hi]

@[simp] theorem fieldOP_encXK (op : BitVec 4) (x : RegIdx) (nn : Byte) : fieldOP (encXK op x nn) = op := by
  apply BitVec.eq_of_getLsbD_eq
  intro i hi
  have h1 : ¬ 12 + i < 8 := by omega
  have h2 : ¬ 12 + i - 8 < 4 := by omega
  have h3 : 12 + i - 8 - 4 = i := by omega
  simp only [fieldOP, encXK, BitVec.getLsbD_append, BitVec.getLsbD_extractLsb']
  simp [hi, h1, h2, h3]

@[simp] theorem fieldX_encXK (op : BitVec 4) (x : RegIdx) (nn : Byte) : fieldX (encXK op x nn) = x := by
  have : (encXK op x nn).extractLsb' 8 4 = idxBits x := by
    apply BitVec.eq_of_getLsbD_eq
    intro i hi
    simp only [encXK, BitVec.getLsbD_append, BitVec.getLsbD_extractLsb']
    simp [hi]
  simp [fieldX, this, idxBits]

@[simp] theorem fieldNN_encXK (op : BitVec 4) (x : RegIdx) (nn : Byte) : fieldNN (encXK op x nn) = nn := by
  apply BitVec.eq_of_getLsbD_eq
  intro i hi
  simp only [fieldNN, encXK, BitVec.getLsbD_append, BitVec.getLsbD_extractLsb']
  simp [hi]

@[simp] theorem fieldOP_encXYN (op : BitVec 4) (x y : RegIdx) (n : BitVec 4) : fieldOP (encXYN op x y n) = op := by
  apply BitVec.eq_of_getLsbD_eq
  intro i hi
  have h1 : ¬ 12 + i < 4 := by omega
  have h2 : ¬ 12 + i - 4 < 4 := by omega
  have h3 : ¬ 12 + i - 4 - 4 < 4 := by omega
  have h4 : 12 + i - 4 - 4 - 4 = i := by omega
  simp only [fieldOP, encXYN, BitVec.getLsbD_append, BitVec.getLsbD_extractLsb']
  simp [hi, h1, h2, h3, h4]

@[simp] theorem fieldX_encXYN (op : BitVec 4) (x y : RegIdx) (n : BitVec 4) : fieldX (encXYN op x y n) = x := by
  have : (encXYN op x y n).extractLsb' 8 4 = idxBits x := by
    apply BitVec.eq_of_getLsbD_eq
    intro i hi
    have h1 : ¬ 8 + i < 4 := by omega
    have h2 : ¬ 8 + i - 4 < 4 := by omega
    have h3 : 8 + i - 4 - 4 = i := by omega
    simp only [encXYN, BitVec.getLsbD_append, BitVec.getLsbD_extractLsb']
    simp [hi, h1, h2, h3]
  simp [fieldX, this, idxBits]

@[simp] theorem fieldY_encXYN (op : BitVec 4) (x y : RegIdx) (n : BitVec 4) : fieldY (encXYN op x y n) = y := by
  have : (encXYN op x y n).extractLsb' 4 4 = idxBits y := by
    apply BitVec.eq_of_getLsbD_eq
    intro i hi
    simp only [encXYN, BitVec.getLsbD_append, BitVec.getLsbD_extractLsb']
    simp [hi]
  simp [fieldY, this, idxBits]

@[simp] theorem fieldN_encXYN (op : BitVec 4) (x y : RegIdx) (n : BitVec 4) : fieldN (encXYN op x y n) = n := by
  apply BitVec.eq_of_getLsbD_eq
  intro i hi
  simp only [fieldN, encXYN, BitVec.getLsbD_append, BitVec.getLsbD_extractLsb']
  simp [hi]

/-! ## A word from its own fields -/

theorem encA_fields (w : Word) : encA (fieldOP w) (fieldNNN w) = w := by
  apply BitVec.eq_of_getLsbD_eq
  intro i hi
  simp only [encA, fieldOP, fieldNNN, BitVec.getLsbD_append, BitVec.getLsbD_extractLsb']
  by_cases h : i < 12
  · simp [h]
  · have h2 : i - 12 < 4 := by omega
    have h3 : 12 + (i - 12) = i := by omega
    simp [h, h2, h3]

theorem idxBits_fieldX (w : Word) : idxBits (fieldX w) = w.extractLsb' 8 4 := rfl
theorem idxBits_fieldY (w : Word) : idxBits (fieldY w) = w.extractLsb' 4 4 := rfl

theorem encXK_fields (w : Word) : encXK (fieldOP w) (fieldX w) (fieldNN w) = w := by
  apply BitVec.eq_of_getLsbD_eq
  intro i hi
  simp only [encXK, fieldOP, fieldNN, idxBits_fieldX, BitVec.getLsbD_append, BitVec.getLsbD_extractLsb']
  by_cases h : i < 8
  · simp [h]
  · by_cases h1 : i - 8 < 4
    · have h3 : 8 + (i - 8) = i := by omega
      simp [h, h1, h3]
    · have h2 : i - 8 - 4 < 4 := by omega
      have h3 : 12 + (i - 8 - 4) = i := by omega
      simp [h, h1, h2, h3]

theorem encXYN_fields (w : Word) : encXYN (fieldOP w) (fieldX w) (fieldY w) (fieldN w) = w := by
  apply BitVec.eq_of_getLsbD_eq
  intro i hi
  simp only [encXYN, fieldOP, fieldN, idxBits_fieldX, idxBits_fieldY, BitVec.getLsbD_append,
    BitVec.getLsbD_extractLsb']
  by_cases h : i < 4
  · simp [h]
  · by_cases h1 : i - 4 < 4
    · have h3 : 4 + (i - 4) = i := by omega
      simp [h, h1, h3]
    · by_cases h2 : i - 4 - 4 < 4
      · have h3 : 8 + (i - 4 - 4) = i := by omega
        simp [h, h1, h2, h3]
      · have h3 : i - 4 - 4 - 4 < 4 := by omega
        have h4 : 12 + (i - 4 - 4 - 4) = i := by omega
        simp [h, h1, h2, h3, h4]

/-! ## An assembled word as a number -/

theorem encA_toNat (op : BitVec 4) (nnn : Addr12) : (encA op nnn).toNat = op.toNat * 4096 + nnn.toNat := by
  rw [encA, BitVec.toNat_append, ← Nat.shiftLeft_add_eq_or_of_lt nnn.isLt, Nat.shiftLeft_eq]

theorem encXK_toNat (op : BitVec 4) (x : RegIdx) (nn : Byte) :
    (encXK op x nn).toNat = op.toNat * 4096 + x.val * 256 + nn.toNat := by
  rw [encXK, BitVec.toNat_append, ← Nat.shiftLeft_add_eq_or_of_lt nn.isLt, BitVec.toNat_append,
    ← Nat.shiftLeft_add_eq_or_of_lt (idxBits x).isLt]
  simp only [Nat.shiftLeft_eq, idxBits, BitVec.toNat_ofFin]
  omega

theorem encXYN_toNat (op : BitVec 4) (x y : RegIdx) (n : BitVec 4) :
    (encXYN op x y n).toNat = op.toNat * 4096 + x.val * 256 + y.val * 16 + n.toNat := by
  rw [encXYN, BitVec.toNat_append, ← Nat.shiftLeft_add_eq_or_of_lt n.isLt, BitVec.toNat_append,
    ← Nat.shiftLeft_add_eq_or_of_lt (idxBits y).isLt, BitVec.toNat_append,
    ← Nat.shiftLeft_add_eq_or_of_lt (idxBits x).isLt]
  simp only [Nat.shiftLeft_eq, idxBits, BitVec.toNat_ofFin]
  omega

/-! ## Masks as conditions on fields (30_encoding.md R75) -/

theorem mask_F000 (w : Word) : w &&& 0xF000 = fieldOP w ++ (0 : Addr12) := by
  apply BitVec.eq_of_getLsbD_eq
  intro i hi
  have h : ∀ j < 16, (0xF000 : Word).getLsbD j = !decide (j < 12) := by decide
  rw [BitVec.getLsbD_and, h i hi, fieldOP, BitVec.getLsbD_append, BitVec.getLsbD_extractLsb']
  by_cases h1 : i < 12
  · simp [h1]
  · have h2 : i - 12 < 4 := by omega
    have h3 : 12 + (i - 12) = i := by omega
    simp [h1, h2, h3]

theorem mask_F00F (w : Word) : w &&& 0xF00F = fieldOP w ++ (0 : Byte) ++ fieldN w := by
  apply BitVec.eq_of_getLsbD_eq
  intro i hi
  have h : ∀ j < 16, (0xF00F : Word).getLsbD j = (decide (j < 4) || !decide (j < 12)) := by decide
  rw [BitVec.getLsbD_and, h i hi, fieldOP, fieldN, BitVec.getLsbD_append, BitVec.getLsbD_append,
    BitVec.getLsbD_extractLsb', BitVec.getLsbD_extractLsb']
  by_cases h1 : i < 4
  · simp [h1]
  · by_cases h2 : i < 12
    · have h3 : i - 4 < 8 := by omega
      simp [h1, h2, h3]
    · have h3 : ¬ i - 4 < 8 := by omega
      have h4 : i - 4 - 8 < 4 := by omega
      have h5 : 12 + (i - 4 - 8) = i := by omega
      simp [h1, h2, h3, h4, h5]

theorem mask_F0FF (w : Word) : w &&& 0xF0FF = fieldOP w ++ (0 : BitVec 4) ++ fieldNN w := by
  apply BitVec.eq_of_getLsbD_eq
  intro i hi
  have h : ∀ j < 16, (0xF0FF : Word).getLsbD j = (decide (j < 8) || !decide (j < 12)) := by decide
  rw [BitVec.getLsbD_and, h i hi, fieldOP, fieldNN, BitVec.getLsbD_append, BitVec.getLsbD_append,
    BitVec.getLsbD_extractLsb', BitVec.getLsbD_extractLsb']
  by_cases h1 : i < 8
  · simp [h1]
  · by_cases h2 : i < 12
    · have h3 : i - 8 < 4 := by omega
      simp [h1, h2, h3]
    · have h3 : ¬ i - 8 < 4 := by omega
      have h4 : i - 8 - 4 < 4 := by omega
      have h5 : 12 + (i - 8 - 4) = i := by omega
      simp [h1, h2, h3, h4, h5]

end Sys2Proof
end

