-- ==== Sys2Proof/Laws/Memory.lean ====
section
/-! SUPPORT. Memory: what each operation reads afterwards, when a range check succeeds, that every operation keeps the
canonical form, and that canonical memories with equal reads are equal. -/

namespace Sys2Proof.Machine

namespace Memory

/-! ## Reads after writes -/

@[simp] theorem lookup_nil (a : Nat) : lookup [] a = none := rfl

theorem lookup_cons (a' : Nat) (b : Byte) (m : Memory) (a : Nat) :
    lookup ((a', b) :: m) a = if a = a' then some b else lookup m a := rfl

theorem lookup_remove (m : Memory) (a a' : Nat) :
    (m.remove a).lookup a' = if a' = a then none else m.lookup a' := by
  induction m with
  | nil => simp [remove]
  | cons c m ih =>
    obtain ⟨k, b⟩ := c
    by_cases hk : k = a
    · subst hk
      have : remove ((k, b) :: m) k = remove m k := by simp [remove]
      rw [this, ih, lookup_cons]
      split <;> rfl
    · have : remove ((k, b) :: m) a = (k, b) :: remove m a := by simp [remove, hk]
      rw [this, lookup_cons, lookup_cons, ih]
      by_cases h : a' = k
      · simp [h, hk]
      · simp [h]

theorem lookup_insert (m : Memory) (a : Nat) (b : Byte) (a' : Nat) (hm : m.lookup a = none) :
    (m.insert a b).lookup a' = if a' = a then some b else m.lookup a' := by
  induction m with
  | nil => simp [insert, lookup_cons]
  | cons c m ih =>
    obtain ⟨k, v⟩ := c
    rw [lookup_cons] at hm
    have hak : a ≠ k := by
      intro h
      simp [h] at hm
    rw [if_neg hak] at hm
    unfold insert
    split
    · rw [lookup_cons]
    · rw [lookup_cons, ih hm, lookup_cons]
      by_cases h : a' = k
      · simp [h, Ne.symm hak]
      · simp [h]

/-- A read after a write of one byte. -/
theorem get_put (m : Memory) (a : Nat) (b : Byte) (a' : Nat) :
    (m.put a b).get a' = if a' = a then b else m.get a' := by
  unfold put get
  split
  · rename_i h
    rw [lookup_remove]
    split
    · rename_i h'
      simp [h, h']
    · rfl
  · rw [lookup_insert _ _ _ _ (by simp [lookup_remove]), lookup_remove]
    split <;> simp

/-- A read after writes at ascending addresses. -/
theorem get_putAll (bs : List Byte) (m : Memory) (base a : Nat) :
    (m.putAll base bs).get a = if base ≤ a then (bs[a - base]?).getD (m.get a) else m.get a := by
  induction bs generalizing m base with
  | nil => simp [putAll]
  | cons b bs ih =>
    rw [putAll, ih, get_put]
    by_cases h1 : base + 1 ≤ a
    · have h2 : base ≤ a := by omega
      have h3 : a - base = (a - (base + 1)) + 1 := by omega
      have h4 : a ≠ base := by omega
      simp [h1, h2, h3, h4]
    · by_cases h2 : a = base
      · simp [h2]
      · have h3 : ¬ base ≤ a := by omega
        simp [h1, h2, h3]

/-- Outside the bytes written, a read is as before. -/
theorem get_putAll_outside (bs : List Byte) (m : Memory) (base a : Nat) (h : ∀ k < bs.length, a ≠ base + k) :
    (m.putAll base bs).get a = m.get a := by
  rw [get_putAll]
  split
  · rename_i hle
    have : bs[a - base]? = none := by
      rw [List.getElem?_eq_none_iff]
      by_contra hlt
      exact h (a - base) (by omega) (by omega)
    simp [this]
  · rfl

/-- At the `k`-th byte written, a read gives it. -/
theorem get_putAll_inside (bs : List Byte) (m : Memory) (base k : Nat) (h : k < bs.length) :
    (m.putAll base bs).get (base + k) = bs[k] := by
  rw [get_putAll]
  simp [h]

theorem getAll_length (m : Memory) (base n : Nat) : (m.getAll base n).length = n := by
  induction n generalizing base with
  | zero => rfl
  | succ n ih => simp [getAll, ih]

theorem getAll_getElem (m : Memory) (base n k : Nat) (h : k < (m.getAll base n).length) :
    (m.getAll base n)[k] = m.get (base + k) := by
  induction n generalizing base k with
  | zero => simp [getAll] at h
  | succ n ih =>
    cases k with
    | zero => rfl
    | succ k =>
      have := ih (base + 1) k (by simpa [getAll] using h)
      simpa [getAll, Nat.add_assoc, Nat.add_comm 1 k] using this

/-! ## Range checks (20_memory.md R52) -/

theorem inRange_iff (base n : Nat) : inRange base n = true ↔ n = 0 ∨ base + n ≤ 4096 := by
  simp [inRange, Config.memSize]

theorem readBytes_none (m : Memory) (base n : Nat) :
    m.readBytes base n = none ↔ n ≠ 0 ∧ 4096 < base + n := by
  have := inRange_iff base n
  unfold readBytes
  split <;> rename_i h
  · simp only [reduceCtorEq, false_iff]
    have := this.1 h
    omega
  · have : ¬ (n = 0 ∨ base + n ≤ 4096) := fun h' => h (this.2 h')
    simp only [true_iff]
    omega

theorem readBytes_some (m : Memory) (base n : Nat) (h : n = 0 ∨ base + n ≤ 4096) :
    m.readBytes base n = some (m.getAll base n) := by
  simp [readBytes, (inRange_iff base n).2 h]

theorem writeBytes_none (m : Memory) (base : Nat) (bs : List Byte) :
    m.writeBytes base bs = none ↔ bs.length ≠ 0 ∧ 4096 < base + bs.length := by
  have := inRange_iff base bs.length
  unfold writeBytes
  split <;> rename_i h
  · simp only [reduceCtorEq, false_iff]
    have := this.1 h
    omega
  · have : ¬ (bs.length = 0 ∨ base + bs.length ≤ 4096) := fun h' => h (this.2 h')
    simp only [true_iff]
    omega

theorem writeBytes_some (m : Memory) (base : Nat) (bs : List Byte) (h : bs.length = 0 ∨ base + bs.length ≤ 4096) :
    m.writeBytes base bs = some (m.putAll base bs) := by
  simp [writeBytes, (inRange_iff base bs.length).2 h]

theorem read_eq (m : Memory) (a : Nat) : m.read a = if a < 4096 then some (m.get a) else none := rfl

/-- Reads are equal wherever `get` is. -/
theorem read_congr {m m' : Memory} {a : Nat} (h : m'.get a = m.get a) : m'.read a = m.read a := by
  simp [read_eq, h]

/-! ## The canonical form (log 27) -/

theorem rising_some (low : Nat) (m : Memory) :
    rising (some low) m = true ↔ (∀ c ∈ m, low < c.1) ∧ m.Pairwise fun c d => c.1 < d.1 := by
  induction m generalizing low with
  | nil => simp [rising]
  | cons c m ih =>
    obtain ⟨a, b⟩ := c
    simp only [rising, Bool.and_eq_true, decide_eq_true_eq, ih, List.pairwise_cons, List.mem_cons, forall_eq_or_imp]
    constructor
    · rintro ⟨h1, h2, h3⟩
      exact ⟨⟨h1, fun c hc => lt_trans h1 (h2 c hc)⟩, h2, h3⟩
    · rintro ⟨⟨h1, -⟩, h2, h3⟩
      exact ⟨h1, h2, h3⟩

theorem rising_none (m : Memory) : rising none m = true ↔ m.Pairwise fun c d => c.1 < d.1 := by
  cases m with
  | nil => simp [rising]
  | cons c m =>
    obtain ⟨a, b⟩ := c
    simp [rising, rising_some]

/-- The canonical form, in words. -/
theorem wf_iff (m : Memory) :
    m.wf = true ↔ (m.Pairwise fun c d => c.1 < d.1) ∧ ∀ c ∈ m, c.1 < 4096 ∧ c.2 ≠ initial c.1 := by
  simp [wf, rising_none, Config.memSize]

theorem mem_insert (m : Memory) (a : Nat) (b : Byte) (c : Host.Cell) : c ∈ m.insert a b ↔ c = (a, b) ∨ c ∈ m := by
  induction m with
  | nil => simp [insert]
  | cons d m ih =>
    obtain ⟨k, v⟩ := d
    unfold insert
    split
    · simp
    · simp only [List.mem_cons, ih]
      tauto

theorem pairwise_insert (m : Memory) (a : Nat) (b : Byte) (hm : m.Pairwise fun c d => c.1 < d.1)
    (ha : ∀ c ∈ m, c.1 ≠ a) : (m.insert a b).Pairwise fun c d => c.1 < d.1 := by
  induction m with
  | nil => simp [insert]
  | cons d m ih =>
    obtain ⟨k, v⟩ := d
    obtain ⟨hd, hm'⟩ := List.pairwise_cons.1 hm
    have hka : k ≠ a := ha (k, v) (by simp)
    unfold insert
    split
    · rename_i hlt
      refine List.pairwise_cons.2 ⟨?_, hm⟩
      intro c hc
      rcases List.mem_cons.1 hc with rfl | hc
      · exact hlt
      · exact lt_trans hlt (hd c hc)
    · refine List.pairwise_cons.2 ⟨?_, ih hm' fun c hc => ha c (List.mem_cons_of_mem _ hc)⟩
      intro c hc
      rcases (mem_insert m a b c).1 hc with rfl | hc
      · show k < a
        omega
      · exact hd c hc

theorem wf_remove (m : Memory) (a : Nat) (h : m.wf = true) : (m.remove a).wf = true := by
  rw [wf_iff] at h ⊢
  refine ⟨h.1.filter _, fun c hc => h.2 c ?_⟩
  exact (List.mem_filter.1 hc).1

/-- A write of one byte keeps the canonical form. -/
theorem wf_put (m : Memory) (a : Nat) (b : Byte) (h : m.wf = true) (ha : a < 4096) : (m.put a b).wf = true := by
  unfold put
  split
  · exact wf_remove m a h
  · rename_i hb
    have hr := wf_remove m a h
    rw [wf_iff] at hr ⊢
    refine ⟨pairwise_insert _ a b hr.1 ?_, ?_⟩
    · intro c hc
      have := (List.mem_filter.1 hc).2
      simpa using this
    · intro c hc
      rcases (mem_insert _ a b c).1 hc with rfl | hc
      · exact ⟨ha, hb⟩
      · exact hr.2 c hc

/-- Writes inside memory keep the canonical form. -/
theorem wf_putAll (bs : List Byte) (m : Memory) (base : Nat) (h : m.wf = true)
    (hr : bs.length = 0 ∨ base + bs.length ≤ 4096) : (m.putAll base bs).wf = true := by
  induction bs generalizing m base with
  | nil => exact h
  | cons b bs ih =>
    simp only [List.length_cons] at hr
    exact ih (m.put base b) (base + 1) (wf_put m base b h (by omega)) (by omega)

/-- Checked writes keep the canonical form. -/
theorem wf_writeBytes (m m' : Memory) (base : Nat) (bs : List Byte) (h : m.wf = true)
    (hw : m.writeBytes base bs = some m') : m'.wf = true := by
  have hr : bs.length = 0 ∨ base + bs.length ≤ 4096 := by
    by_contra hn
    rw [(writeBytes_none m base bs).2 (by omega)] at hw
    cases hw
  rw [writeBytes_some m base bs hr] at hw
  cases hw
  exact wf_putAll bs m base h hr

/-- A stored word keeps the canonical form. -/
theorem wf_putWord (m : Memory) (a : Nat) (w : Word) (h : m.wf = true) (ha : a + 2 ≤ 4096) :
    (m.putWord a w).wf = true :=
  wf_putAll _ m a h (by simpa using ha)

theorem lookup_eq_some (m : Memory) (h : m.wf = true) (a : Nat) (b : Byte) :
    m.lookup a = some b ↔ (a, b) ∈ m := by
  rw [wf_iff] at h
  obtain ⟨hp, -⟩ := h
  induction m with
  | nil => simp
  | cons c m ih =>
    obtain ⟨k, v⟩ := c
    obtain ⟨hd, hp'⟩ := List.pairwise_cons.1 hp
    rw [lookup_cons, List.mem_cons, ← ih hp']
    split
    · rename_i hk
      subst hk
      constructor
      · rintro h
        simp_all
      · rintro (h | h)
        · simp_all
        · exact absurd (hd _ ((ih hp').1 h)) (lt_irrefl _)
    · rename_i hk
      simp [hk]

end Memory

end Sys2Proof.Machine
end

