-- ==== Sys2Proof/Laws/State.lean ====
section
/-! SUPPORT. One lemma per field per update of the state, true by rfl, and the same for the four accessors `reg`,
`pixel`, `keyAt`, `readByte` where an update does not touch them: no later proof unfolds a record update. -/

namespace Sys2Proof.Machine

variable (s : State)

@[simp] theorem State.setReg_v (r : RegIdx) (b : Byte) : (s.setReg r b).v = s.v.set r b := rfl
@[simp] theorem State.setReg_i (r : RegIdx) (b : Byte) : (s.setReg r b).i = s.i := rfl
@[simp] theorem State.setReg_pc (r : RegIdx) (b : Byte) : (s.setReg r b).pc = s.pc := rfl
@[simp] theorem State.setReg_sp (r : RegIdx) (b : Byte) : (s.setReg r b).sp = s.sp := rfl
@[simp] theorem State.setReg_stack (r : RegIdx) (b : Byte) : (s.setReg r b).stack = s.stack := rfl
@[simp] theorem State.setReg_dt (r : RegIdx) (b : Byte) : (s.setReg r b).dt = s.dt := rfl
@[simp] theorem State.setReg_st (r : RegIdx) (b : Byte) : (s.setReg r b).st = s.st := rfl
@[simp] theorem State.setReg_mem (r : RegIdx) (b : Byte) : (s.setReg r b).mem = s.mem := rfl
@[simp] theorem State.setReg_display (r : RegIdx) (b : Byte) : (s.setReg r b).display = s.display := rfl
@[simp] theorem State.setReg_changed (r : RegIdx) (b : Byte) : (s.setReg r b).changed = s.changed := rfl
@[simp] theorem State.setReg_key (r : RegIdx) (b : Byte) : (s.setReg r b).key = s.key := rfl
@[simp] theorem State.setReg_waiting (r : RegIdx) (b : Byte) : (s.setReg r b).waiting = s.waiting := rfl
@[simp] theorem State.setReg_waitReg (r : RegIdx) (b : Byte) : (s.setReg r b).waitReg = s.waitReg := rfl
@[simp] theorem State.setReg_fault (r : RegIdx) (b : Byte) : (s.setReg r b).fault = s.fault := rfl
@[simp] theorem State.setReg_rndSeq (r : RegIdx) (b : Byte) : (s.setReg r b).rndSeq = s.rndSeq := rfl
@[simp] theorem State.setReg_rndDraws (r : RegIdx) (b : Byte) : (s.setReg r b).rndDraws = s.rndDraws := rfl
@[simp] theorem State.setReg_pixel (r : RegIdx) (b : Byte) (y : Fin 32) (z : Fin 64) : (s.setReg r b).pixel y z = s.pixel y z := rfl
@[simp] theorem State.setReg_keyAt (r : RegIdx) (b : Byte) (j : RegIdx) : (s.setReg r b).keyAt j = s.keyAt j := rfl
@[simp] theorem State.setReg_readByte (r : RegIdx) (b : Byte) (n : Nat) : (s.setReg r b).readByte n = s.readByte n := rfl

@[simp] theorem State.setI_v (a : Word) : (s.setI a).v = s.v := rfl
@[simp] theorem State.setI_i (a : Word) : (s.setI a).i = a := rfl
@[simp] theorem State.setI_pc (a : Word) : (s.setI a).pc = s.pc := rfl
@[simp] theorem State.setI_sp (a : Word) : (s.setI a).sp = s.sp := rfl
@[simp] theorem State.setI_stack (a : Word) : (s.setI a).stack = s.stack := rfl
@[simp] theorem State.setI_dt (a : Word) : (s.setI a).dt = s.dt := rfl
@[simp] theorem State.setI_st (a : Word) : (s.setI a).st = s.st := rfl
@[simp] theorem State.setI_mem (a : Word) : (s.setI a).mem = s.mem := rfl
@[simp] theorem State.setI_display (a : Word) : (s.setI a).display = s.display := rfl
@[simp] theorem State.setI_changed (a : Word) : (s.setI a).changed = s.changed := rfl
@[simp] theorem State.setI_key (a : Word) : (s.setI a).key = s.key := rfl
@[simp] theorem State.setI_waiting (a : Word) : (s.setI a).waiting = s.waiting := rfl
@[simp] theorem State.setI_waitReg (a : Word) : (s.setI a).waitReg = s.waitReg := rfl
@[simp] theorem State.setI_fault (a : Word) : (s.setI a).fault = s.fault := rfl
@[simp] theorem State.setI_rndSeq (a : Word) : (s.setI a).rndSeq = s.rndSeq := rfl
@[simp] theorem State.setI_rndDraws (a : Word) : (s.setI a).rndDraws = s.rndDraws := rfl
@[simp] theorem State.setI_reg (a : Word) (q : RegIdx) : (s.setI a).reg q = s.reg q := rfl
@[simp] theorem State.setI_pixel (a : Word) (y : Fin 32) (z : Fin 64) : (s.setI a).pixel y z = s.pixel y z := rfl
@[simp] theorem State.setI_keyAt (a : Word) (j : RegIdx) : (s.setI a).keyAt j = s.keyAt j := rfl
@[simp] theorem State.setI_readByte (a : Word) (n : Nat) : (s.setI a).readByte n = s.readByte n := rfl

@[simp] theorem State.setPc_v (a : Word) : (s.setPc a).v = s.v := rfl
@[simp] theorem State.setPc_i (a : Word) : (s.setPc a).i = s.i := rfl
@[simp] theorem State.setPc_pc (a : Word) : (s.setPc a).pc = a := rfl
@[simp] theorem State.setPc_sp (a : Word) : (s.setPc a).sp = s.sp := rfl
@[simp] theorem State.setPc_stack (a : Word) : (s.setPc a).stack = s.stack := rfl
@[simp] theorem State.setPc_dt (a : Word) : (s.setPc a).dt = s.dt := rfl
@[simp] theorem State.setPc_st (a : Word) : (s.setPc a).st = s.st := rfl
@[simp] theorem State.setPc_mem (a : Word) : (s.setPc a).mem = s.mem := rfl
@[simp] theorem State.setPc_display (a : Word) : (s.setPc a).display = s.display := rfl
@[simp] theorem State.setPc_changed (a : Word) : (s.setPc a).changed = s.changed := rfl
@[simp] theorem State.setPc_key (a : Word) : (s.setPc a).key = s.key := rfl
@[simp] theorem State.setPc_waiting (a : Word) : (s.setPc a).waiting = s.waiting := rfl
@[simp] theorem State.setPc_waitReg (a : Word) : (s.setPc a).waitReg = s.waitReg := rfl
@[simp] theorem State.setPc_fault (a : Word) : (s.setPc a).fault = s.fault := rfl
@[simp] theorem State.setPc_rndSeq (a : Word) : (s.setPc a).rndSeq = s.rndSeq := rfl
@[simp] theorem State.setPc_rndDraws (a : Word) : (s.setPc a).rndDraws = s.rndDraws := rfl
@[simp] theorem State.setPc_reg (a : Word) (q : RegIdx) : (s.setPc a).reg q = s.reg q := rfl
@[simp] theorem State.setPc_pixel (a : Word) (y : Fin 32) (z : Fin 64) : (s.setPc a).pixel y z = s.pixel y z := rfl
@[simp] theorem State.setPc_keyAt (a : Word) (j : RegIdx) : (s.setPc a).keyAt j = s.keyAt j := rfl
@[simp] theorem State.setPc_readByte (a : Word) (n : Nat) : (s.setPc a).readByte n = s.readByte n := rfl

@[simp] theorem State.advance_v : (s.advance).v = s.v := rfl
@[simp] theorem State.advance_i : (s.advance).i = s.i := rfl
@[simp] theorem State.advance_pc : (s.advance).pc = s.pc + 2 := rfl
@[simp] theorem State.advance_sp : (s.advance).sp = s.sp := rfl
@[simp] theorem State.advance_stack : (s.advance).stack = s.stack := rfl
@[simp] theorem State.advance_dt : (s.advance).dt = s.dt := rfl
@[simp] theorem State.advance_st : (s.advance).st = s.st := rfl
@[simp] theorem State.advance_mem : (s.advance).mem = s.mem := rfl
@[simp] theorem State.advance_display : (s.advance).display = s.display := rfl
@[simp] theorem State.advance_changed : (s.advance).changed = s.changed := rfl
@[simp] theorem State.advance_key : (s.advance).key = s.key := rfl
@[simp] theorem State.advance_waiting : (s.advance).waiting = s.waiting := rfl
@[simp] theorem State.advance_waitReg : (s.advance).waitReg = s.waitReg := rfl
@[simp] theorem State.advance_fault : (s.advance).fault = s.fault := rfl
@[simp] theorem State.advance_rndSeq : (s.advance).rndSeq = s.rndSeq := rfl
@[simp] theorem State.advance_rndDraws : (s.advance).rndDraws = s.rndDraws := rfl
@[simp] theorem State.advance_reg (q : RegIdx) : (s.advance).reg q = s.reg q := rfl
@[simp] theorem State.advance_pixel (y : Fin 32) (z : Fin 64) : (s.advance).pixel y z = s.pixel y z := rfl
@[simp] theorem State.advance_keyAt (j : RegIdx) : (s.advance).keyAt j = s.keyAt j := rfl
@[simp] theorem State.advance_readByte (n : Nat) : (s.advance).readByte n = s.readByte n := rfl

@[simp] theorem State.skipIf_v (c : Bool) : (s.skipIf c).v = s.v := rfl
@[simp] theorem State.skipIf_i (c : Bool) : (s.skipIf c).i = s.i := rfl
@[simp] theorem State.skipIf_pc (c : Bool) : (s.skipIf c).pc = if c then s.pc + 4 else s.pc + 2 := rfl
@[simp] theorem State.skipIf_sp (c : Bool) : (s.skipIf c).sp = s.sp := rfl
@[simp] theorem State.skipIf_stack (c : Bool) : (s.skipIf c).stack = s.stack := rfl
@[simp] theorem State.skipIf_dt (c : Bool) : (s.skipIf c).dt = s.dt := rfl
@[simp] theorem State.skipIf_st (c : Bool) : (s.skipIf c).st = s.st := rfl
@[simp] theorem State.skipIf_mem (c : Bool) : (s.skipIf c).mem = s.mem := rfl
@[simp] theorem State.skipIf_display (c : Bool) : (s.skipIf c).display = s.display := rfl
@[simp] theorem State.skipIf_changed (c : Bool) : (s.skipIf c).changed = s.changed := rfl
@[simp] theorem State.skipIf_key (c : Bool) : (s.skipIf c).key = s.key := rfl
@[simp] theorem State.skipIf_waiting (c : Bool) : (s.skipIf c).waiting = s.waiting := rfl
@[simp] theorem State.skipIf_waitReg (c : Bool) : (s.skipIf c).waitReg = s.waitReg := rfl
@[simp] theorem State.skipIf_fault (c : Bool) : (s.skipIf c).fault = s.fault := rfl
@[simp] theorem State.skipIf_rndSeq (c : Bool) : (s.skipIf c).rndSeq = s.rndSeq := rfl
@[simp] theorem State.skipIf_rndDraws (c : Bool) : (s.skipIf c).rndDraws = s.rndDraws := rfl
@[simp] theorem State.skipIf_reg (c : Bool) (q : RegIdx) : (s.skipIf c).reg q = s.reg q := rfl
@[simp] theorem State.skipIf_pixel (c : Bool) (y : Fin 32) (z : Fin 64) : (s.skipIf c).pixel y z = s.pixel y z := rfl
@[simp] theorem State.skipIf_keyAt (c : Bool) (j : RegIdx) : (s.skipIf c).keyAt j = s.keyAt j := rfl
@[simp] theorem State.skipIf_readByte (c : Bool) (n : Nat) : (s.skipIf c).readByte n = s.readByte n := rfl

@[simp] theorem State.tickTimers_v : (s.tickTimers).v = s.v := rfl
@[simp] theorem State.tickTimers_i : (s.tickTimers).i = s.i := rfl
@[simp] theorem State.tickTimers_pc : (s.tickTimers).pc = s.pc := rfl
@[simp] theorem State.tickTimers_sp : (s.tickTimers).sp = s.sp := rfl
@[simp] theorem State.tickTimers_stack : (s.tickTimers).stack = s.stack := rfl
@[simp] theorem State.tickTimers_dt : (s.tickTimers).dt = tick s.dt := rfl
@[simp] theorem State.tickTimers_st : (s.tickTimers).st = tick s.st := rfl
@[simp] theorem State.tickTimers_mem : (s.tickTimers).mem = s.mem := rfl
@[simp] theorem State.tickTimers_display : (s.tickTimers).display = s.display := rfl
@[simp] theorem State.tickTimers_changed : (s.tickTimers).changed = s.changed := rfl
@[simp] theorem State.tickTimers_key : (s.tickTimers).key = s.key := rfl
@[simp] theorem State.tickTimers_waiting : (s.tickTimers).waiting = s.waiting := rfl
@[simp] theorem State.tickTimers_waitReg : (s.tickTimers).waitReg = s.waitReg := rfl
@[simp] theorem State.tickTimers_fault : (s.tickTimers).fault = s.fault := rfl
@[simp] theorem State.tickTimers_rndSeq : (s.tickTimers).rndSeq = s.rndSeq := rfl
@[simp] theorem State.tickTimers_rndDraws : (s.tickTimers).rndDraws = s.rndDraws := rfl
@[simp] theorem State.tickTimers_reg (q : RegIdx) : (s.tickTimers).reg q = s.reg q := rfl
@[simp] theorem State.tickTimers_pixel (y : Fin 32) (z : Fin 64) : (s.tickTimers).pixel y z = s.pixel y z := rfl
@[simp] theorem State.tickTimers_keyAt (j : RegIdx) : (s.tickTimers).keyAt j = s.keyAt j := rfl
@[simp] theorem State.tickTimers_readByte (n : Nat) : (s.tickTimers).readByte n = s.readByte n := rfl

@[simp] theorem State.setDt_v (b : Byte) : (s.setDt b).v = s.v := rfl
@[simp] theorem State.setDt_i (b : Byte) : (s.setDt b).i = s.i := rfl
@[simp] theorem State.setDt_pc (b : Byte) : (s.setDt b).pc = s.pc := rfl
@[simp] theorem State.setDt_sp (b : Byte) : (s.setDt b).sp = s.sp := rfl
@[simp] theorem State.setDt_stack (b : Byte) : (s.setDt b).stack = s.stack := rfl
@[simp] theorem State.setDt_dt (b : Byte) : (s.setDt b).dt = b := rfl
@[simp] theorem State.setDt_st (b : Byte) : (s.setDt b).st = s.st := rfl
@[simp] theorem State.setDt_mem (b : Byte) : (s.setDt b).mem = s.mem := rfl
@[simp] theorem State.setDt_display (b : Byte) : (s.setDt b).display = s.display := rfl
@[simp] theorem State.setDt_changed (b : Byte) : (s.setDt b).changed = s.changed := rfl
@[simp] theorem State.setDt_key (b : Byte) : (s.setDt b).key = s.key := rfl
@[simp] theorem State.setDt_waiting (b : Byte) : (s.setDt b).waiting = s.waiting := rfl
@[simp] theorem State.setDt_waitReg (b : Byte) : (s.setDt b).waitReg = s.waitReg := rfl
@[simp] theorem State.setDt_fault (b : Byte) : (s.setDt b).fault = s.fault := rfl
@[simp] theorem State.setDt_rndSeq (b : Byte) : (s.setDt b).rndSeq = s.rndSeq := rfl
@[simp] theorem State.setDt_rndDraws (b : Byte) : (s.setDt b).rndDraws = s.rndDraws := rfl
@[simp] theorem State.setDt_reg (b : Byte) (q : RegIdx) : (s.setDt b).reg q = s.reg q := rfl
@[simp] theorem State.setDt_pixel (b : Byte) (y : Fin 32) (z : Fin 64) : (s.setDt b).pixel y z = s.pixel y z := rfl
@[simp] theorem State.setDt_keyAt (b : Byte) (j : RegIdx) : (s.setDt b).keyAt j = s.keyAt j := rfl
@[simp] theorem State.setDt_readByte (b : Byte) (n : Nat) : (s.setDt b).readByte n = s.readByte n := rfl

@[simp] theorem State.setSt_v (b : Byte) : (s.setSt b).v = s.v := rfl
@[simp] theorem State.setSt_i (b : Byte) : (s.setSt b).i = s.i := rfl
@[simp] theorem State.setSt_pc (b : Byte) : (s.setSt b).pc = s.pc := rfl
@[simp] theorem State.setSt_sp (b : Byte) : (s.setSt b).sp = s.sp := rfl
@[simp] theorem State.setSt_stack (b : Byte) : (s.setSt b).stack = s.stack := rfl
@[simp] theorem State.setSt_dt (b : Byte) : (s.setSt b).dt = s.dt := rfl
@[simp] theorem State.setSt_st (b : Byte) : (s.setSt b).st = b := rfl
@[simp] theorem State.setSt_mem (b : Byte) : (s.setSt b).mem = s.mem := rfl
@[simp] theorem State.setSt_display (b : Byte) : (s.setSt b).display = s.display := rfl
@[simp] theorem State.setSt_changed (b : Byte) : (s.setSt b).changed = s.changed := rfl
@[simp] theorem State.setSt_key (b : Byte) : (s.setSt b).key = s.key := rfl
@[simp] theorem State.setSt_waiting (b : Byte) : (s.setSt b).waiting = s.waiting := rfl
@[simp] theorem State.setSt_waitReg (b : Byte) : (s.setSt b).waitReg = s.waitReg := rfl
@[simp] theorem State.setSt_fault (b : Byte) : (s.setSt b).fault = s.fault := rfl
@[simp] theorem State.setSt_rndSeq (b : Byte) : (s.setSt b).rndSeq = s.rndSeq := rfl
@[simp] theorem State.setSt_rndDraws (b : Byte) : (s.setSt b).rndDraws = s.rndDraws := rfl
@[simp] theorem State.setSt_reg (b : Byte) (q : RegIdx) : (s.setSt b).reg q = s.reg q := rfl
@[simp] theorem State.setSt_pixel (b : Byte) (y : Fin 32) (z : Fin 64) : (s.setSt b).pixel y z = s.pixel y z := rfl
@[simp] theorem State.setSt_keyAt (b : Byte) (j : RegIdx) : (s.setSt b).keyAt j = s.keyAt j := rfl
@[simp] theorem State.setSt_readByte (b : Byte) (n : Nat) : (s.setSt b).readByte n = s.readByte n := rfl

@[simp] theorem State.setMem_v (m : Memory) : (s.setMem m).v = s.v := rfl
@[simp] theorem State.setMem_i (m : Memory) : (s.setMem m).i = s.i := rfl
@[simp] theorem State.setMem_pc (m : Memory) : (s.setMem m).pc = s.pc := rfl
@[simp] theorem State.setMem_sp (m : Memory) : (s.setMem m).sp = s.sp := rfl
@[simp] theorem State.setMem_stack (m : Memory) : (s.setMem m).stack = s.stack := rfl
@[simp] theorem State.setMem_dt (m : Memory) : (s.setMem m).dt = s.dt := rfl
@[simp] theorem State.setMem_st (m : Memory) : (s.setMem m).st = s.st := rfl
@[simp] theorem State.setMem_mem (m : Memory) : (s.setMem m).mem = m := rfl
@[simp] theorem State.setMem_display (m : Memory) : (s.setMem m).display = s.display := rfl
@[simp] theorem State.setMem_changed (m : Memory) : (s.setMem m).changed = s.changed := rfl
@[simp] theorem State.setMem_key (m : Memory) : (s.setMem m).key = s.key := rfl
@[simp] theorem State.setMem_waiting (m : Memory) : (s.setMem m).waiting = s.waiting := rfl
@[simp] theorem State.setMem_waitReg (m : Memory) : (s.setMem m).waitReg = s.waitReg := rfl
@[simp] theorem State.setMem_fault (m : Memory) : (s.setMem m).fault = s.fault := rfl
@[simp] theorem State.setMem_rndSeq (m : Memory) : (s.setMem m).rndSeq = s.rndSeq := rfl
@[simp] theorem State.setMem_rndDraws (m : Memory) : (s.setMem m).rndDraws = s.rndDraws := rfl
@[simp] theorem State.setMem_reg (m : Memory) (q : RegIdx) : (s.setMem m).reg q = s.reg q := rfl
@[simp] theorem State.setMem_pixel (m : Memory) (y : Fin 32) (z : Fin 64) : (s.setMem m).pixel y z = s.pixel y z := rfl
@[simp] theorem State.setMem_keyAt (m : Memory) (j : RegIdx) : (s.setMem m).keyAt j = s.keyAt j := rfl

@[simp] theorem State.setPixel_v (r : Fin 32) (c : Fin 64) (b : Bool) : (s.setPixel r c b).v = s.v := rfl
@[simp] theorem State.setPixel_i (r : Fin 32) (c : Fin 64) (b : Bool) : (s.setPixel r c b).i = s.i := rfl
@[simp] theorem State.setPixel_pc (r : Fin 32) (c : Fin 64) (b : Bool) : (s.setPixel r c b).pc = s.pc := rfl
@[simp] theorem State.setPixel_sp (r : Fin 32) (c : Fin 64) (b : Bool) : (s.setPixel r c b).sp = s.sp := rfl
@[simp] theorem State.setPixel_stack (r : Fin 32) (c : Fin 64) (b : Bool) : (s.setPixel r c b).stack = s.stack := rfl
@[simp] theorem State.setPixel_dt (r : Fin 32) (c : Fin 64) (b : Bool) : (s.setPixel r c b).dt = s.dt := rfl
@[simp] theorem State.setPixel_st (r : Fin 32) (c : Fin 64) (b : Bool) : (s.setPixel r c b).st = s.st := rfl
@[simp] theorem State.setPixel_mem (r : Fin 32) (c : Fin 64) (b : Bool) : (s.setPixel r c b).mem = s.mem := rfl
@[simp] theorem State.setPixel_display (r : Fin 32) (c : Fin 64) (b : Bool) : (s.setPixel r c b).display = s.display.set r ((s.display[r]).set c b) := rfl
@[simp] theorem State.setPixel_changed (r : Fin 32) (c : Fin 64) (b : Bool) : (s.setPixel r c b).changed = s.changed := rfl
@[simp] theorem State.setPixel_key (r : Fin 32) (c : Fin 64) (b : Bool) : (s.setPixel r c b).key = s.key := rfl
@[simp] theorem State.setPixel_waiting (r : Fin 32) (c : Fin 64) (b : Bool) : (s.setPixel r c b).waiting = s.waiting := rfl
@[simp] theorem State.setPixel_waitReg (r : Fin 32) (c : Fin 64) (b : Bool) : (s.setPixel r c b).waitReg = s.waitReg := rfl
@[simp] theorem State.setPixel_fault (r : Fin 32) (c : Fin 64) (b : Bool) : (s.setPixel r c b).fault = s.fault := rfl
@[simp] theorem State.setPixel_rndSeq (r : Fin 32) (c : Fin 64) (b : Bool) : (s.setPixel r c b).rndSeq = s.rndSeq := rfl
@[simp] theorem State.setPixel_rndDraws (r : Fin 32) (c : Fin 64) (b : Bool) : (s.setPixel r c b).rndDraws = s.rndDraws := rfl
@[simp] theorem State.setPixel_reg (r : Fin 32) (c : Fin 64) (b : Bool) (q : RegIdx) : (s.setPixel r c b).reg q = s.reg q := rfl
@[simp] theorem State.setPixel_keyAt (r : Fin 32) (c : Fin 64) (b : Bool) (j : RegIdx) : (s.setPixel r c b).keyAt j = s.keyAt j := rfl
@[simp] theorem State.setPixel_readByte (r : Fin 32) (c : Fin 64) (b : Bool) (n : Nat) : (s.setPixel r c b).readByte n = s.readByte n := rfl

@[simp] theorem State.clearDisplay_v : (s.clearDisplay).v = s.v := rfl
@[simp] theorem State.clearDisplay_i : (s.clearDisplay).i = s.i := rfl
@[simp] theorem State.clearDisplay_pc : (s.clearDisplay).pc = s.pc := rfl
@[simp] theorem State.clearDisplay_sp : (s.clearDisplay).sp = s.sp := rfl
@[simp] theorem State.clearDisplay_stack : (s.clearDisplay).stack = s.stack := rfl
@[simp] theorem State.clearDisplay_dt : (s.clearDisplay).dt = s.dt := rfl
@[simp] theorem State.clearDisplay_st : (s.clearDisplay).st = s.st := rfl
@[simp] theorem State.clearDisplay_mem : (s.clearDisplay).mem = s.mem := rfl
@[simp] theorem State.clearDisplay_display : (s.clearDisplay).display = Vector.replicate 32 (Vector.replicate 64 false) := rfl
@[simp] theorem State.clearDisplay_changed : (s.clearDisplay).changed = s.changed := rfl
@[simp] theorem State.clearDisplay_key : (s.clearDisplay).key = s.key := rfl
@[simp] theorem State.clearDisplay_waiting : (s.clearDisplay).waiting = s.waiting := rfl
@[simp] theorem State.clearDisplay_waitReg : (s.clearDisplay).waitReg = s.waitReg := rfl
@[simp] theorem State.clearDisplay_fault : (s.clearDisplay).fault = s.fault := rfl
@[simp] theorem State.clearDisplay_rndSeq : (s.clearDisplay).rndSeq = s.rndSeq := rfl
@[simp] theorem State.clearDisplay_rndDraws : (s.clearDisplay).rndDraws = s.rndDraws := rfl
@[simp] theorem State.clearDisplay_reg (q : RegIdx) : (s.clearDisplay).reg q = s.reg q := rfl
@[simp] theorem State.clearDisplay_keyAt (j : RegIdx) : (s.clearDisplay).keyAt j = s.keyAt j := rfl
@[simp] theorem State.clearDisplay_readByte (n : Nat) : (s.clearDisplay).readByte n = s.readByte n := rfl

@[simp] theorem State.setChanged_v (b : Bool) : (s.setChanged b).v = s.v := rfl
@[simp] theorem State.setChanged_i (b : Bool) : (s.setChanged b).i = s.i := rfl
@[simp] theorem State.setChanged_pc (b : Bool) : (s.setChanged b).pc = s.pc := rfl
@[simp] theorem State.setChanged_sp (b : Bool) : (s.setChanged b).sp = s.sp := rfl
@[simp] theorem State.setChanged_stack (b : Bool) : (s.setChanged b).stack = s.stack := rfl
@[simp] theorem State.setChanged_dt (b : Bool) : (s.setChanged b).dt = s.dt := rfl
@[simp] theorem State.setChanged_st (b : Bool) : (s.setChanged b).st = s.st := rfl
@[simp] theorem State.setChanged_mem (b : Bool) : (s.setChanged b).mem = s.mem := rfl
@[simp] theorem State.setChanged_display (b : Bool) : (s.setChanged b).display = s.display := rfl
@[simp] theorem State.setChanged_changed (b : Bool) : (s.setChanged b).changed = b := rfl
@[simp] theorem State.setChanged_key (b : Bool) : (s.setChanged b).key = s.key := rfl
@[simp] theorem State.setChanged_waiting (b : Bool) : (s.setChanged b).waiting = s.waiting := rfl
@[simp] theorem State.setChanged_waitReg (b : Bool) : (s.setChanged b).waitReg = s.waitReg := rfl
@[simp] theorem State.setChanged_fault (b : Bool) : (s.setChanged b).fault = s.fault := rfl
@[simp] theorem State.setChanged_rndSeq (b : Bool) : (s.setChanged b).rndSeq = s.rndSeq := rfl
@[simp] theorem State.setChanged_rndDraws (b : Bool) : (s.setChanged b).rndDraws = s.rndDraws := rfl
@[simp] theorem State.setChanged_reg (b : Bool) (q : RegIdx) : (s.setChanged b).reg q = s.reg q := rfl
@[simp] theorem State.setChanged_pixel (b : Bool) (y : Fin 32) (z : Fin 64) : (s.setChanged b).pixel y z = s.pixel y z := rfl
@[simp] theorem State.setChanged_keyAt (b : Bool) (j : RegIdx) : (s.setChanged b).keyAt j = s.keyAt j := rfl
@[simp] theorem State.setChanged_readByte (b : Bool) (n : Nat) : (s.setChanged b).readByte n = s.readByte n := rfl

@[simp] theorem State.setKey_v (k : RegIdx) (b : Bool) : (s.setKey k b).v = s.v := rfl
@[simp] theorem State.setKey_i (k : RegIdx) (b : Bool) : (s.setKey k b).i = s.i := rfl
@[simp] theorem State.setKey_pc (k : RegIdx) (b : Bool) : (s.setKey k b).pc = s.pc := rfl
@[simp] theorem State.setKey_sp (k : RegIdx) (b : Bool) : (s.setKey k b).sp = s.sp := rfl
@[simp] theorem State.setKey_stack (k : RegIdx) (b : Bool) : (s.setKey k b).stack = s.stack := rfl
@[simp] theorem State.setKey_dt (k : RegIdx) (b : Bool) : (s.setKey k b).dt = s.dt := rfl
@[simp] theorem State.setKey_st (k : RegIdx) (b : Bool) : (s.setKey k b).st = s.st := rfl
@[simp] theorem State.setKey_mem (k : RegIdx) (b : Bool) : (s.setKey k b).mem = s.mem := rfl
@[simp] theorem State.setKey_display (k : RegIdx) (b : Bool) : (s.setKey k b).display = s.display := rfl
@[simp] theorem State.setKey_changed (k : RegIdx) (b : Bool) : (s.setKey k b).changed = s.changed := rfl
@[simp] theorem State.setKey_key (k : RegIdx) (b : Bool) : (s.setKey k b).key = s.key.set k b := rfl
@[simp] theorem State.setKey_waiting (k : RegIdx) (b : Bool) : (s.setKey k b).waiting = s.waiting := rfl
@[simp] theorem State.setKey_waitReg (k : RegIdx) (b : Bool) : (s.setKey k b).waitReg = s.waitReg := rfl
@[simp] theorem State.setKey_fault (k : RegIdx) (b : Bool) : (s.setKey k b).fault = s.fault := rfl
@[simp] theorem State.setKey_rndSeq (k : RegIdx) (b : Bool) : (s.setKey k b).rndSeq = s.rndSeq := rfl
@[simp] theorem State.setKey_rndDraws (k : RegIdx) (b : Bool) : (s.setKey k b).rndDraws = s.rndDraws := rfl
@[simp] theorem State.setKey_reg (k : RegIdx) (b : Bool) (q : RegIdx) : (s.setKey k b).reg q = s.reg q := rfl
@[simp] theorem State.setKey_pixel (k : RegIdx) (b : Bool) (y : Fin 32) (z : Fin 64) : (s.setKey k b).pixel y z = s.pixel y z := rfl
@[simp] theorem State.setKey_readByte (k : RegIdx) (b : Bool) (n : Nat) : (s.setKey k b).readByte n = s.readByte n := rfl

@[simp] theorem State.beginWait_v (x : RegIdx) : (s.beginWait x).v = s.v := rfl
@[simp] theorem State.beginWait_i (x : RegIdx) : (s.beginWait x).i = s.i := rfl
@[simp] theorem State.beginWait_pc (x : RegIdx) : (s.beginWait x).pc = s.pc := rfl
@[simp] theorem State.beginWait_sp (x : RegIdx) : (s.beginWait x).sp = s.sp := rfl
@[simp] theorem State.beginWait_stack (x : RegIdx) : (s.beginWait x).stack = s.stack := rfl
@[simp] theorem State.beginWait_dt (x : RegIdx) : (s.beginWait x).dt = s.dt := rfl
@[simp] theorem State.beginWait_st (x : RegIdx) : (s.beginWait x).st = s.st := rfl
@[simp] theorem State.beginWait_mem (x : RegIdx) : (s.beginWait x).mem = s.mem := rfl
@[simp] theorem State.beginWait_display (x : RegIdx) : (s.beginWait x).display = s.display := rfl
@[simp] theorem State.beginWait_changed (x : RegIdx) : (s.beginWait x).changed = s.changed := rfl
@[simp] theorem State.beginWait_key (x : RegIdx) : (s.beginWait x).key = s.key := rfl
@[simp] theorem State.beginWait_waiting (x : RegIdx) : (s.beginWait x).waiting = true := rfl
@[simp] theorem State.beginWait_waitReg (x : RegIdx) : (s.beginWait x).waitReg = x := rfl
@[simp] theorem State.beginWait_fault (x : RegIdx) : (s.beginWait x).fault = s.fault := rfl
@[simp] theorem State.beginWait_rndSeq (x : RegIdx) : (s.beginWait x).rndSeq = s.rndSeq := rfl
@[simp] theorem State.beginWait_rndDraws (x : RegIdx) : (s.beginWait x).rndDraws = s.rndDraws := rfl
@[simp] theorem State.beginWait_reg (x : RegIdx) (q : RegIdx) : (s.beginWait x).reg q = s.reg q := rfl
@[simp] theorem State.beginWait_pixel (x : RegIdx) (y : Fin 32) (z : Fin 64) : (s.beginWait x).pixel y z = s.pixel y z := rfl
@[simp] theorem State.beginWait_keyAt (x : RegIdx) (j : RegIdx) : (s.beginWait x).keyAt j = s.keyAt j := rfl
@[simp] theorem State.beginWait_readByte (x : RegIdx) (n : Nat) : (s.beginWait x).readByte n = s.readByte n := rfl

@[simp] theorem State.endWait_v : (s.endWait).v = s.v := rfl
@[simp] theorem State.endWait_i : (s.endWait).i = s.i := rfl
@[simp] theorem State.endWait_pc : (s.endWait).pc = s.pc := rfl
@[simp] theorem State.endWait_sp : (s.endWait).sp = s.sp := rfl
@[simp] theorem State.endWait_stack : (s.endWait).stack = s.stack := rfl
@[simp] theorem State.endWait_dt : (s.endWait).dt = s.dt := rfl
@[simp] theorem State.endWait_st : (s.endWait).st = s.st := rfl
@[simp] theorem State.endWait_mem : (s.endWait).mem = s.mem := rfl
@[simp] theorem State.endWait_display : (s.endWait).display = s.display := rfl
@[simp] theorem State.endWait_changed : (s.endWait).changed = s.changed := rfl
@[simp] theorem State.endWait_key : (s.endWait).key = s.key := rfl
@[simp] theorem State.endWait_waiting : (s.endWait).waiting = false := rfl
@[simp] theorem State.endWait_waitReg : (s.endWait).waitReg = s.waitReg := rfl
@[simp] theorem State.endWait_fault : (s.endWait).fault = s.fault := rfl
@[simp] theorem State.endWait_rndSeq : (s.endWait).rndSeq = s.rndSeq := rfl
@[simp] theorem State.endWait_rndDraws : (s.endWait).rndDraws = s.rndDraws := rfl
@[simp] theorem State.endWait_reg (q : RegIdx) : (s.endWait).reg q = s.reg q := rfl
@[simp] theorem State.endWait_pixel (y : Fin 32) (z : Fin 64) : (s.endWait).pixel y z = s.pixel y z := rfl
@[simp] theorem State.endWait_keyAt (j : RegIdx) : (s.endWait).keyAt j = s.keyAt j := rfl
@[simp] theorem State.endWait_readByte (n : Nat) : (s.endWait).readByte n = s.readByte n := rfl

@[simp] theorem State.consumeRnd_v : (s.consumeRnd).v = s.v := rfl
@[simp] theorem State.consumeRnd_i : (s.consumeRnd).i = s.i := rfl
@[simp] theorem State.consumeRnd_pc : (s.consumeRnd).pc = s.pc := rfl
@[simp] theorem State.consumeRnd_sp : (s.consumeRnd).sp = s.sp := rfl
@[simp] theorem State.consumeRnd_stack : (s.consumeRnd).stack = s.stack := rfl
@[simp] theorem State.consumeRnd_dt : (s.consumeRnd).dt = s.dt := rfl
@[simp] theorem State.consumeRnd_st : (s.consumeRnd).st = s.st := rfl
@[simp] theorem State.consumeRnd_mem : (s.consumeRnd).mem = s.mem := rfl
@[simp] theorem State.consumeRnd_display : (s.consumeRnd).display = s.display := rfl
@[simp] theorem State.consumeRnd_changed : (s.consumeRnd).changed = s.changed := rfl
@[simp] theorem State.consumeRnd_key : (s.consumeRnd).key = s.key := rfl
@[simp] theorem State.consumeRnd_waiting : (s.consumeRnd).waiting = s.waiting := rfl
@[simp] theorem State.consumeRnd_waitReg : (s.consumeRnd).waitReg = s.waitReg := rfl
@[simp] theorem State.consumeRnd_fault : (s.consumeRnd).fault = s.fault := rfl
@[simp] theorem State.consumeRnd_rndSeq : (s.consumeRnd).rndSeq = s.rndSeq.tail := rfl
@[simp] theorem State.consumeRnd_rndDraws : (s.consumeRnd).rndDraws = s.rndDraws + 1 := rfl
@[simp] theorem State.consumeRnd_reg (q : RegIdx) : (s.consumeRnd).reg q = s.reg q := rfl
@[simp] theorem State.consumeRnd_pixel (y : Fin 32) (z : Fin 64) : (s.consumeRnd).pixel y z = s.pixel y z := rfl
@[simp] theorem State.consumeRnd_keyAt (j : RegIdx) : (s.consumeRnd).keyAt j = s.keyAt j := rfl
@[simp] theorem State.consumeRnd_readByte (n : Nat) : (s.consumeRnd).readByte n = s.readByte n := rfl

@[simp] theorem State.raise_v (f : Fault) : (s.raise f).v = s.v := rfl
@[simp] theorem State.raise_i (f : Fault) : (s.raise f).i = s.i := rfl
@[simp] theorem State.raise_pc (f : Fault) : (s.raise f).pc = s.pc := rfl
@[simp] theorem State.raise_sp (f : Fault) : (s.raise f).sp = s.sp := rfl
@[simp] theorem State.raise_stack (f : Fault) : (s.raise f).stack = s.stack := rfl
@[simp] theorem State.raise_dt (f : Fault) : (s.raise f).dt = s.dt := rfl
@[simp] theorem State.raise_st (f : Fault) : (s.raise f).st = s.st := rfl
@[simp] theorem State.raise_mem (f : Fault) : (s.raise f).mem = s.mem := rfl
@[simp] theorem State.raise_display (f : Fault) : (s.raise f).display = s.display := rfl
@[simp] theorem State.raise_changed (f : Fault) : (s.raise f).changed = s.changed := rfl
@[simp] theorem State.raise_key (f : Fault) : (s.raise f).key = s.key := rfl
@[simp] theorem State.raise_waiting (f : Fault) : (s.raise f).waiting = s.waiting := rfl
@[simp] theorem State.raise_waitReg (f : Fault) : (s.raise f).waitReg = s.waitReg := rfl
@[simp] theorem State.raise_fault (f : Fault) : (s.raise f).fault = some f := rfl
@[simp] theorem State.raise_rndSeq (f : Fault) : (s.raise f).rndSeq = s.rndSeq := rfl
@[simp] theorem State.raise_rndDraws (f : Fault) : (s.raise f).rndDraws = s.rndDraws := rfl
@[simp] theorem State.raise_reg (f : Fault) (q : RegIdx) : (s.raise f).reg q = s.reg q := rfl
@[simp] theorem State.raise_pixel (f : Fault) (y : Fin 32) (z : Fin 64) : (s.raise f).pixel y z = s.pixel y z := rfl
@[simp] theorem State.raise_keyAt (f : Fault) (j : RegIdx) : (s.raise f).keyAt j = s.keyAt j := rfl
@[simp] theorem State.raise_readByte (f : Fault) (n : Nat) : (s.raise f).readByte n = s.readByte n := rfl

@[simp] theorem State.setFlag_v (b : Bool) : (s.setFlag b).v = s.v.set Config.flagReg (flagByte b) := rfl
@[simp] theorem State.setFlag_i (b : Bool) : (s.setFlag b).i = s.i := rfl
@[simp] theorem State.setFlag_pc (b : Bool) : (s.setFlag b).pc = s.pc := rfl
@[simp] theorem State.setFlag_sp (b : Bool) : (s.setFlag b).sp = s.sp := rfl
@[simp] theorem State.setFlag_stack (b : Bool) : (s.setFlag b).stack = s.stack := rfl
@[simp] theorem State.setFlag_dt (b : Bool) : (s.setFlag b).dt = s.dt := rfl
@[simp] theorem State.setFlag_st (b : Bool) : (s.setFlag b).st = s.st := rfl
@[simp] theorem State.setFlag_mem (b : Bool) : (s.setFlag b).mem = s.mem := rfl
@[simp] theorem State.setFlag_display (b : Bool) : (s.setFlag b).display = s.display := rfl
@[simp] theorem State.setFlag_changed (b : Bool) : (s.setFlag b).changed = s.changed := rfl
@[simp] theorem State.setFlag_key (b : Bool) : (s.setFlag b).key = s.key := rfl
@[simp] theorem State.setFlag_waiting (b : Bool) : (s.setFlag b).waiting = s.waiting := rfl
@[simp] theorem State.setFlag_waitReg (b : Bool) : (s.setFlag b).waitReg = s.waitReg := rfl
@[simp] theorem State.setFlag_fault (b : Bool) : (s.setFlag b).fault = s.fault := rfl
@[simp] theorem State.setFlag_rndSeq (b : Bool) : (s.setFlag b).rndSeq = s.rndSeq := rfl
@[simp] theorem State.setFlag_rndDraws (b : Bool) : (s.setFlag b).rndDraws = s.rndDraws := rfl
@[simp] theorem State.setFlag_pixel (b : Bool) (y : Fin 32) (z : Fin 64) : (s.setFlag b).pixel y z = s.pixel y z := rfl
@[simp] theorem State.setFlag_keyAt (b : Bool) (j : RegIdx) : (s.setFlag b).keyAt j = s.keyAt j := rfl
@[simp] theorem State.setFlag_readByte (b : Bool) (n : Nat) : (s.setFlag b).readByte n = s.readByte n := rfl

@[simp] theorem State.orFlag_v (b : Bool) : (s.orFlag b).v = s.v.set Config.flagReg (s.reg Config.flagReg ||| flagByte b) := rfl
@[simp] theorem State.orFlag_i (b : Bool) : (s.orFlag b).i = s.i := rfl
@[simp] theorem State.orFlag_pc (b : Bool) : (s.orFlag b).pc = s.pc := rfl
@[simp] theorem State.orFlag_sp (b : Bool) : (s.orFlag b).sp = s.sp := rfl
@[simp] theorem State.orFlag_stack (b : Bool) : (s.orFlag b).stack = s.stack := rfl
@[simp] theorem State.orFlag_dt (b : Bool) : (s.orFlag b).dt = s.dt := rfl
@[simp] theorem State.orFlag_st (b : Bool) : (s.orFlag b).st = s.st := rfl
@[simp] theorem State.orFlag_mem (b : Bool) : (s.orFlag b).mem = s.mem := rfl
@[simp] theorem State.orFlag_display (b : Bool) : (s.orFlag b).display = s.display := rfl
@[simp] theorem State.orFlag_changed (b : Bool) : (s.orFlag b).changed = s.changed := rfl
@[simp] theorem State.orFlag_key (b : Bool) : (s.orFlag b).key = s.key := rfl
@[simp] theorem State.orFlag_waiting (b : Bool) : (s.orFlag b).waiting = s.waiting := rfl
@[simp] theorem State.orFlag_waitReg (b : Bool) : (s.orFlag b).waitReg = s.waitReg := rfl
@[simp] theorem State.orFlag_fault (b : Bool) : (s.orFlag b).fault = s.fault := rfl
@[simp] theorem State.orFlag_rndSeq (b : Bool) : (s.orFlag b).rndSeq = s.rndSeq := rfl
@[simp] theorem State.orFlag_rndDraws (b : Bool) : (s.orFlag b).rndDraws = s.rndDraws := rfl
@[simp] theorem State.orFlag_pixel (b : Bool) (y : Fin 32) (z : Fin 64) : (s.orFlag b).pixel y z = s.pixel y z := rfl
@[simp] theorem State.orFlag_keyAt (b : Bool) (j : RegIdx) : (s.orFlag b).keyAt j = s.keyAt j := rfl
@[simp] theorem State.orFlag_readByte (b : Bool) (n : Nat) : (s.orFlag b).readByte n = s.readByte n := rfl

end Sys2Proof.Machine
end

