-- ==== Sys2Proof/Laws/Ops.lean ====
section
/-! SUPPORT. What each shared operation does, once: registers, flags, display, keypad, call stack, the multi-register
operations, the operand forms, the fetch and the placing of an instruction. -/

namespace Sys2Proof.Machine

/-! ## Registers and flags -/

@[simp] theorem State.setReg_reg (s : State) (r : RegIdx) (b : Byte) (q : RegIdx) :
    (s.setReg r b).reg q = if q = r then b else s.reg q := by
  show (s.v.set r.val b r.isLt)[q.val] = _
  rw [Vector.getElem_set]
  by_cases h : q = r
  · simp [h]
  · have : r.val ≠ q.val := fun e => h (Fin.ext e.symm)
    simp [h, this]
    rfl

@[simp] theorem State.setFlag_reg (s : State) (b : Bool) (q : RegIdx) :
    (s.setFlag b).reg q = if q = 15 then flagByte b else s.reg q :=
  State.setReg_reg s Config.flagReg (flagByte b) q

@[simp] theorem State.orFlag_reg (s : State) (b : Bool) (q : RegIdx) :
    (s.orFlag b).reg q = if q = 15 then s.reg 15 ||| flagByte b else s.reg q :=
  State.setReg_reg s Config.flagReg _ q

@[simp] theorem flagByte_true : flagByte true = 1 := rfl
@[simp] theorem flagByte_false : flagByte false = 0 := rfl

theorem flagByte_or (a b : Bool) : flagByte a ||| flagByte b = flagByte (a || b) := by
  cases a <;> cases b <;> rfl

/-! ## Memory, display, keypad -/

@[simp] theorem State.setMem_readByte (s : State) (m : Memory) (a : Nat) : (s.setMem m).readByte a = m.read a := rfl

@[simp] theorem State.setPixel_pixel (s : State) (r : Fin 32) (c : Fin 64) (b : Bool) (y : Fin 32) (z : Fin 64) :
    (s.setPixel r c b).pixel y z = if y = r ∧ z = c then b else s.pixel y z := by
  show ((s.display.set r.val ((s.display[r]).set c.val b c.isLt) r.isLt)[y.val])[z.val] = _
  rw [Vector.getElem_set]
  by_cases h : y = r
  · subst h
    rw [if_pos rfl, Vector.getElem_set]
    by_cases h' : z = c
    · simp [h']
    · have : c.val ≠ z.val := fun e => h' (Fin.ext e.symm)
      simp [h', this]
      rfl
  · have : r.val ≠ y.val := fun e => h (Fin.ext e.symm)
    simp [h, this]
    rfl

@[simp] theorem State.clearDisplay_pixel (s : State) (y : Fin 32) (z : Fin 64) : s.clearDisplay.pixel y z = false := by
  simp [State.pixel, State.clearDisplay]

@[simp] theorem State.setKey_keyAt (s : State) (k : RegIdx) (b : Bool) (j : RegIdx) :
    (s.setKey k b).keyAt j = if j = k then b else s.keyAt j := by
  show (s.key.set k.val b k.isLt)[j.val] = _
  rw [Vector.getElem_set]
  by_cases h : j = k
  · simp [h]
  · have : k.val ≠ j.val := fun e => h (Fin.ext e.symm)
    simp [h, this]
    rfl

theorem State.firstPressed_some (s : State) (k : RegIdx) :
    s.firstPressed = some k ↔ s.keyAt k = true ∧ ∀ j < k, s.keyAt j = false := by
  unfold State.firstPressed
  rw [List.find?_eq_some_iff_getElem]
  constructor
  · rintro ⟨hk, i, hi, he, hlt⟩
    refine ⟨hk, fun j hj => ?_⟩
    have hik : i = k.val := by
      have := congrArg Fin.val he
      simpa using this
    have := hlt j.val (by rw [hik]; exact hj)
    simpa using this
  · rintro ⟨hk, hlt⟩
    refine ⟨hk, k.val, by simp, by simp, fun j hj => ?_⟩
    have := hlt ⟨j, lt_trans hj k.isLt⟩ hj
    simpa using this

theorem State.firstPressed_none (s : State) : s.firstPressed = none ↔ ∀ k, s.keyAt k = false := by
  simp [State.firstPressed, List.find?_eq_none]

/-! ## The call stack -/

/-- Everything a push does when there is room (10_state.md R24). -/
theorem State.push_some (s : State) (a : Word) (h : s.sp.val < 16) :
    s.push a = some { s with stack := s.stack.set s.sp.val a h, sp := ⟨s.sp.val + 1, Nat.succ_lt_succ h⟩ } := by
  rw [State.push]
  exact dif_pos h

theorem State.push_none (s : State) (a : Word) : s.push a = none ↔ s.sp.val = 16 := by
  have := s.sp.isLt
  unfold State.push
  split <;> rename_i h
  · simp only [reduceCtorEq, false_iff]
    have : s.sp.val < 16 := h
    omega
  · have : ¬ s.sp.val < 16 := h
    simp only [true_iff]
    omega

/-- Everything a pop does when there is a return address (10_state.md R24). -/
theorem State.pop_some (s : State) (h : s.sp.val ≠ 0) :
    s.pop = some (s.stack[s.sp.val - 1]'(by have := s.sp.isLt; omega),
      { s with sp := ⟨s.sp.val - 1, by have := s.sp.isLt; omega⟩ }) := by
  rw [State.pop]
  exact dif_neg h

theorem State.pop_none (s : State) : s.pop = none ↔ s.sp.val = 0 := by
  unfold State.pop
  split <;> rename_i h
  · simp [h]
  · simp [h]

/-! ## Several registers at once (43_index_memory.md R144, R145) -/

/-- Loading registers changes registers only. -/
theorem State.setRegsFrom_frame (bs : List Byte) (s : State) (k : Nat) :
    s.setRegsFrom k bs = { s with v := (s.setRegsFrom k bs).v } := by
  induction bs generalizing s k with
  | nil => rfl
  | cons b bs ih =>
    unfold State.setRegsFrom
    split
    · exact ih (s.setReg _ b) (k + 1)
    · rfl

theorem State.setRegsFrom_reg (bs : List Byte) (s : State) (k : Nat) (q : RegIdx) :
    (s.setRegsFrom k bs).reg q = if k ≤ q.val then (bs[q.val - k]?).getD (s.reg q) else s.reg q := by
  induction bs generalizing s k with
  | nil => simp [State.setRegsFrom]
  | cons b bs ih =>
    unfold State.setRegsFrom
    split
    · rename_i hk
      rw [ih, State.setReg_reg]
      by_cases h1 : k + 1 ≤ q.val
      · have h2 : k ≤ q.val := by omega
        have h3 : q.val - k = (q.val - (k + 1)) + 1 := by omega
        have h4 : q ≠ ⟨k, hk⟩ := fun e => by simp [e] at h1
        simp [h1, h2, h3, h4]
      · by_cases h2 : q = ⟨k, hk⟩
        · simp [h2]
        · have h3 : ¬ k ≤ q.val := fun h => h2 (Fin.ext (by simp; omega))
          simp [h1, h2, h3]
    · have h2 : ¬ k ≤ q.val := by have := q.isLt; omega
      simp [h2]

@[simp] theorem State.regsUpTo_length (s : State) (x : RegIdx) : (s.regsUpTo x).length = x.val + 1 := by
  have : ∀ x : Fin 16, ((List.finRange 16).filter fun r => r ≤ x).length = x.val + 1 := by decide
  simp [State.regsUpTo, this x]

theorem State.regsUpTo_getElem? (s : State) (x k : RegIdx) (h : k ≤ x) : (s.regsUpTo x)[k.val]? = some (s.reg k) := by
  have : ∀ x k : Fin 16, k ≤ x → ((List.finRange 16).filter fun r => r ≤ x)[k.val]? = some k := by decide
  simp [State.regsUpTo, this x k h]

theorem bcdDigits_length (v : Byte) : (bcdDigits v).length = 3 := rfl

/-! ## Timers -/

theorem tick_toNat (t : Byte) : (tick t).toNat = t.toNat - 1 := by
  unfold tick
  split
  · rename_i h
    simp [h]
  · rename_i h
    have : t.toNat ≠ 0 := fun e => h (BitVec.eq_of_toNat_eq e)
    have := t.isLt
    rw [BitVec.toNat_sub]
    simp
    omega

/-! ## Fetch (40_cycle_dispatch.md R95) and the placed instruction (log 29) -/

theorem State.fetchWord_some (s : State) (h : s.pc.toNat ≤ 0xFFE) :
    s.fetchWord = some (wordOfBytes (s.mem.get s.pc.toNat) (s.mem.get (s.pc.toNat + 1))) := by
  have : inRange s.pc.toNat Config.instrBytes = true := (Memory.inRange_iff _ _).2 (Or.inr (by show s.pc.toNat + 2 ≤ 4096; omega))
  simp only [State.fetchWord, this, if_true]

theorem State.fetchWord_none (s : State) : s.fetchWord = none ↔ 0xFFE < s.pc.toNat := by
  have := Memory.inRange_iff s.pc.toNat Config.instrBytes
  unfold State.fetchWord
  split <;> rename_i h
  · simp only [reduceCtorEq, false_iff]
    have : 2 = 0 ∨ s.pc.toNat + 2 ≤ 4096 := this.1 h
    omega
  · have : ¬ (2 = 0 ∨ s.pc.toNat + 2 ≤ 4096) := fun h' => h (this.2 h')
    simp only [true_iff]
    omega

theorem wordOfBytes_high_low (w : Word) : wordOfBytes (highByte w) (lowByte w) = w := by
  apply BitVec.eq_of_getLsbD_eq
  intro i hi
  simp only [wordOfBytes, highByte, lowByte, BitVec.getLsbD_append, BitVec.getLsbD_extractLsb']
  by_cases h : i < 8
  · simp [h]
  · have h2 : i - 8 < 8 := by omega
    have h3 : 8 + (i - 8) = i := by omega
    simp [h, h2, h3]

/-- The number a fetched word is (20_memory.md R53). -/
theorem wordOfBytes_toNat (hi lo : Byte) : (wordOfBytes hi lo).toNat = hi.toNat * 256 + lo.toNat := by
  have := lo.isLt
  rw [wordOfBytes, BitVec.toNat_append, ← Nat.shiftLeft_add_eq_or_of_lt this, Nat.shiftLeft_eq]

/-- A stored word is read back as it was written (20_memory.md R53). -/
theorem Memory.get_putWord (m : Memory) (a : Nat) (w : Word) :
    wordOfBytes ((m.putWord a w).get a) ((m.putWord a w).get (a + 1)) = w := by
  simp [Memory.putWord, Memory.get_putAll, wordOfBytes_high_low]

/-- The placed instruction is the one the next step fetches. -/
theorem State.placeWord_fetchWord (s : State) (w : Word) : (s.placeWord w).fetchWord = some w := by
  have hpc : (s.placeWord w).pc.toNat ≤ 0xFFE := by
    unfold State.placeWord
    dsimp only
    split
    · rename_i h
      have : s.pc.toNat + 2 ≤ 4096 := h
      omega
    · decide
  rw [State.fetchWord_some _ hpc]
  exact congrArg some (Memory.get_putWord _ _ _)

theorem State.placeWord_fault (s : State) (w : Word) : (s.placeWord w).fault = none := rfl
theorem State.placeWord_waiting (s : State) (w : Word) : (s.placeWord w).waiting = false := rfl

end Sys2Proof.Machine
end

