-- ==== Sys2Proof/Laws/Draw.lean ====
section
/-! SUPPORT. The XOR-draw engine (spec/44_display.md R151): what any run of the loops leaves alone, for every choice of
position registers, and its closed form when neither position register is `VF`. -/

namespace Sys2Proof.Machine

/-! ## For every choice of position registers -/

/-- A property that every sprite bit keeps holds after the whole sprite. -/
theorem drawRows_induct {P : State → Prop} (x y : RegIdx) (hP : ∀ row b t bit, P t → P (drawPixel x y row b t bit))
    (bs : List Byte) (row : Nat) (s : State) (h : P s) : P (drawRows x y row bs s) := by
  have hrow : ∀ row b t, P t → P (drawRow x y row b t) := by
    intro row b t ht
    unfold drawRow
    generalize List.range 8 = l
    induction l generalizing t with
    | nil => exact ht
    | cons bit l ih => exact ih _ (hP row b t bit ht)
  induction bs generalizing row s with
  | nil => exact h
  | cons b bs ih => exact ih (row + 1) (drawRow x y row b s) (hrow row b s h)

/-- Drawing changes the display and `VF` only. -/
theorem drawRows_frame (x y : RegIdx) (bs : List Byte) (row : Nat) (s : State) :
    drawRows x y row bs s = { s with v := (drawRows x y row bs s).v, display := (drawRows x y row bs s).display } :=
  drawRows_induct (P := fun t => t = { s with v := t.v, display := t.display }) x y
    (fun _ _ t _ ht => by
      show (_ : State) = _
      unfold drawPixel
      rw [ht]
      rfl) bs row s rfl

/-- Drawing leaves every register but `VF`. -/
theorem drawRows_reg (x y : RegIdx) (bs : List Byte) (row : Nat) (s : State) (q : RegIdx) (hq : q ≠ 15) :
    (drawRows x y row bs s).reg q = s.reg q :=
  drawRows_induct (P := fun t => t.reg q = s.reg q) x y
    (fun _ _ t _ ht => by simp [drawPixel, hq, ht]) bs row s rfl

/-- The rows are drawn one after another. -/
theorem drawRows_append (x y : RegIdx) (bs cs : List Byte) (row : Nat) (s : State) :
    drawRows x y row (bs ++ cs) s = drawRows x y (row + bs.length) cs (drawRows x y row bs s) := by
  induction bs generalizing row s with
  | nil => rfl
  | cons b bs ih =>
    simp only [List.cons_append, drawRows, List.length_cons]
    rw [ih, show row + 1 + bs.length = row + (bs.length + 1) by omega]

/-! ## The closed form when the position registers are not `VF` -/

/-- How far column `c` is to the right of the sprite's left edge, modulo 64. -/
def colOffset (vx : Byte) (c : Fin 64) : Nat := (c.val + 256 - vx.toNat) % 64

/-- How far row `r` is below the sprite's top edge, modulo 32. -/
def rowOffset (vy : Byte) (r : Fin 32) : Nat := (r.val + 256 - vy.toNat) % 32

theorem column_eq_iff (vx : Byte) (c : Fin 64) (bit : Nat) (h : bit < 64) :
    c = column vx bit ↔ colOffset vx c = bit := by
  have := vx.isLt
  have := c.isLt
  rw [Fin.ext_iff]
  show c.val = (vx.toNat + bit) % 64 ↔ (c.val + 256 - vx.toNat) % 64 = bit
  omega

theorem rowOf_eq_iff (vy : Byte) (r : Fin 32) (row : Nat) (h : row < 32) :
    r = rowOf vy row ↔ rowOffset vy r = row := by
  have := vy.isLt
  have := r.isLt
  rw [Fin.ext_iff]
  show r.val = (vy.toNat + row) % 32 ↔ (r.val + 256 - vy.toNat) % 32 = row
  omega

variable {x y : RegIdx}

theorem drawBits (hx : x ≠ 15) (hy : y ≠ 15) (row : Nat) (b : Byte) (n : Nat) (hn : n ≤ 8) (s : State) :
    (∀ r c, ((List.range n).foldl (drawPixel x y row b) s).pixel r c =
      (s.pixel r c ^^ (decide (r = rowOf (s.reg y) row) && decide (colOffset (s.reg x) c < n) &&
        spriteBit b (colOffset (s.reg x) c)))) ∧
    ((List.range n).foldl (drawPixel x y row b) s).reg 15 =
      s.reg 15 ||| flagByte ((List.range n).any fun bit =>
        spriteBit b bit && s.pixel (rowOf (s.reg y) row) (column (s.reg x) bit)) ∧
    (∀ q, q ≠ 15 → ((List.range n).foldl (drawPixel x y row b) s).reg q = s.reg q) := by
  induction n with
  | zero => simp
  | succ n ih =>
    obtain ⟨hpix, hflag, hreg⟩ := ih (by omega)
    rw [List.range_succ, List.foldl_append]
    generalize (List.range n).foldl (drawPixel x y row b) s = t at hpix hflag hreg ⊢
    have htx : t.reg x = s.reg x := hreg x hx
    have hty : t.reg y = s.reg y := hreg y hy
    have hnew : t.pixel (rowOf (s.reg y) row) (column (s.reg x) n) =
        s.pixel (rowOf (s.reg y) row) (column (s.reg x) n) := by
      have : colOffset (s.reg x) (column (s.reg x) n) = n := (column_eq_iff _ _ n (by omega)).1 rfl
      simp [hpix, this]
    refine ⟨?_, ?_, ?_⟩
    · intro r c
      simp only [List.foldl_cons, List.foldl_nil, drawPixel, htx, hty, State.setPixel_pixel, State.orFlag_pixel]
      by_cases hc : c = column (s.reg x) n
      · have ho := (column_eq_iff (s.reg x) c n (by omega)).1 hc
        by_cases hr : r = rowOf (s.reg y) row
        · simp only [hc, hr, and_self, if_true, hnew]
          rw [← hc, ho]
          simp
        · simp [hr, hpix]
      · have ho : colOffset (s.reg x) c ≠ n := fun h => hc ((column_eq_iff (s.reg x) c n (by omega)).2 h)
        have hlt : colOffset (s.reg x) c < n + 1 ↔ colOffset (s.reg x) c < n := by omega
        simp [hc, hpix, hlt]
    · simp only [List.foldl_cons, List.foldl_nil, drawPixel, htx, hty, State.setPixel_reg, State.orFlag_reg, if_true,
        hflag, hnew, List.any_append, List.any_cons, List.any_nil, Bool.or_false]
      rw [BitVec.or_assoc, flagByte_or]
    · intro q hq
      simp [drawPixel, hq, hreg q hq]

/-- The sprite bit that lands on a pixel, from sprite row number `row` on. -/
def spriteAt (vx vy : Byte) (row : Nat) (bs : List Byte) (r : Fin 32) (c : Fin 64) : Bool :=
  decide (row ≤ rowOffset vy r) && decide (colOffset vx c < 8) &&
    ((bs[rowOffset vy r - row]?).any fun b => spriteBit b (colOffset vx c))

/-- The pixels of a whole sprite: each is XORed with the sprite bit that lands on it. -/
theorem drawRows_pixel (hx : x ≠ 15) (hy : y ≠ 15) (bs : List Byte) (row : Nat) (hrow : row + bs.length ≤ 32)
    (s : State) (r : Fin 32) (c : Fin 64) :
    (drawRows x y row bs s).pixel r c = (s.pixel r c ^^ spriteAt (s.reg x) (s.reg y) row bs r c) := by
  induction bs generalizing row s with
  | nil => simp [drawRows, spriteAt]
  | cons b bs ih =>
    obtain ⟨hpix, -, hreg⟩ := drawBits hx hy row b 8 (le_refl 8) s
    simp only [List.length_cons] at hrow
    rw [drawRows, ih (row + 1) (by omega)]
    unfold drawRow
    rw [hpix, hreg x hx, hreg y hy]
    have hiff := rowOf_eq_iff (s.reg y) r row (by omega)
    unfold spriteAt
    by_cases h1 : rowOffset (s.reg y) r = row
    · simp [hiff.2 h1]
      have h2 : rowOffset (s.reg y) (rowOf (s.reg y) row) = row := (rowOf_eq_iff _ _ row (by omega)).1 rfl
      simp [h2]
    · have h2 : ¬ r = rowOf (s.reg y) row := fun h => h1 (hiff.1 h)
      by_cases h3 : row + 1 ≤ rowOffset (s.reg y) r
      · have h4 : row ≤ rowOffset (s.reg y) r := by omega
        have h5 : rowOffset (s.reg y) r - row = (rowOffset (s.reg y) r - (row + 1)) + 1 := by omega
        simp [h2, h3, h4, h5]
      · have h4 : ¬ row ≤ rowOffset (s.reg y) r := by omega
        simp [h2, h3, h4]

/-- `VF` after a whole sprite: 1 is ORed in exactly when some sprite bit landed on a set pixel. -/
theorem drawRows_flag (hx : x ≠ 15) (hy : y ≠ 15) (bs : List Byte) (row : Nat) (hrow : row + bs.length ≤ 32)
    (s : State) :
    (drawRows x y row bs s).reg 15 = s.reg 15 ||| flagByte (decide (∃ r c,
      spriteAt (s.reg x) (s.reg y) row bs r c = true ∧ s.pixel r c = true)) := by
  induction bs generalizing row s with
  | nil => simp [drawRows, spriteAt]
  | cons b bs ih =>
    obtain ⟨hpix, hflag, hreg⟩ := drawBits hx hy row b 8 (le_refl 8) s
    simp only [List.length_cons] at hrow
    rw [drawRows, ih (row + 1) (by omega)]
    unfold drawRow
    rw [hflag, hreg x hx, hreg y hy, BitVec.or_assoc, flagByte_or]
    refine congrArg (fun z => s.reg 15 ||| flagByte z) ?_
    rw [Bool.eq_iff_iff]
    simp only [Bool.or_eq_true, List.any_eq_true, List.mem_range, Bool.and_eq_true, decide_eq_true_eq]
    constructor
    · rintro (⟨bit, hbit, hs, hp⟩ | ⟨r, c, hs, hp⟩)
      · refine ⟨rowOf (s.reg y) row, column (s.reg x) bit, ?_, hp⟩
        have h1 : rowOffset (s.reg y) (rowOf (s.reg y) row) = row := (rowOf_eq_iff _ _ row (by omega)).1 rfl
        have h2 : colOffset (s.reg x) (column (s.reg x) bit) = bit := (column_eq_iff _ _ bit (by omega)).1 rfl
        simp [spriteAt, h1, h2, hbit, hs]
      · have hs' := hs
        simp only [spriteAt, Bool.and_eq_true, decide_eq_true_eq] at hs
        obtain ⟨⟨h1, h2⟩, h3⟩ := hs
        have hr : ¬ r = rowOf (s.reg y) row := fun h => by
          have := (rowOf_eq_iff (s.reg y) r row (by omega)).1 h
          omega
        have h5 : rowOffset (s.reg y) r - row = (rowOffset (s.reg y) r - (row + 1)) + 1 := by omega
        refine ⟨r, c, ?_, ?_⟩
        · have h4 : row ≤ rowOffset (s.reg y) r := by omega
          simp [spriteAt, h4, h2, h5, h3]
        · simpa [hpix, hr] using hp
    · rintro ⟨r, c, hs, hp⟩
      simp only [spriteAt, Bool.and_eq_true, decide_eq_true_eq] at hs
      obtain ⟨⟨h1, h2⟩, h3⟩ := hs
      by_cases h4 : rowOffset (s.reg y) r = row
      · left
        refine ⟨colOffset (s.reg x) c, h2, ?_, ?_⟩
        · simpa [h4] using h3
        · rw [← (rowOf_eq_iff (s.reg y) r row (by omega)).2 h4, ← (column_eq_iff (s.reg x) c _ (by omega)).2 rfl]
          exact hp
      · right
        have hr : ¬ r = rowOf (s.reg y) row := fun h => h4 ((rowOf_eq_iff (s.reg y) r row (by omega)).1 h)
        have h5 : rowOffset (s.reg y) r - row = (rowOffset (s.reg y) r - (row + 1)) + 1 := by omega
        rw [h5, List.getElem?_cons_succ] at h3
        refine ⟨r, c, ?_, ?_⟩
        · have h6 : row + 1 ≤ rowOffset (s.reg y) r := by omega
          simp [spriteAt, h6, h2, h3]
        · simpa [hpix, hr] using hp

end Sys2Proof.Machine
end

