-- ==== Sys2Proof/Laws/Exec.lean ====
section
/-! SUPPORT. The instructions that can raise: each either raises its one condition, under its one test, or answers the
next state written out here. Every other instruction has one outcome and is its definition. -/

namespace Sys2Proof.Machine

theorem raised_eq (f : Fault) (s : State) : raised f s = .next (s.raise f) := rfl

theorem execRet_cases (s : State) :
    (s.sp.val = 0 ∧ exec .ret s = .next (s.raise (.stackUnderflow s.pc))) ∨
    ∃ (_ : s.sp.val ≠ 0) (h' : s.sp.val - 1 < 16), exec .ret s =
      .next { s with sp := ⟨s.sp.val - 1, Nat.lt_succ_of_lt h'⟩, pc := s.stack[s.sp.val - 1] } := by
  by_cases h : s.sp.val = 0
  · exact Or.inl ⟨h, by simp only [exec, execRet, (State.pop_none s).2 h, raised_eq]⟩
  · refine Or.inr ⟨h, by have := s.sp.isLt; omega, ?_⟩
    simp only [exec, execRet, State.pop_some s h]
    rfl

theorem execCall_cases (s : State) (nnn : Addr12) :
    (s.sp.val = 16 ∧ exec (.call nnn) s = .next (s.raise (.stackOverflow s.pc))) ∨
    ∃ h : s.sp.val < 16, exec (.call nnn) s = .next { s with
      stack := s.stack.set s.sp.val (s.pc + 2) h, sp := ⟨s.sp.val + 1, Nat.succ_lt_succ h⟩, pc := zext16 nnn } := by
  by_cases h : s.sp.val = 16
  · exact Or.inl ⟨h, by simp only [exec, execCall, (State.push_none s _).2 h, raised_eq]⟩
  · have hlt : s.sp.val < 16 := by have := s.sp.isLt; omega
    refine Or.inr ⟨hlt, ?_⟩
    simp only [exec, execCall, State.push_some s _ hlt]
    rfl

theorem keyIndex_some (v : Byte) (k : RegIdx) : keyIndex v = some k ↔ k.val = v.toNat := by
  unfold keyIndex
  split <;> rename_i h
  · rw [Option.some_inj, Fin.ext_iff]
    exact eq_comm
  · have := k.isLt
    simp only [reduceCtorEq, false_iff]
    omega

theorem keyIndex_none (v : Byte) : keyIndex v = none ↔ 15 < v.toNat := by
  unfold keyIndex
  split <;> simp <;> omega

theorem execSkipKey_cases (s : State) (x : RegIdx) :
    (15 < (s.reg x).toNat ∧ exec (.skipKey x) s = .next (s.raise (.keypadIndexOutOfRange s.pc (s.reg x)))) ∨
    ∃ k : RegIdx, k.val = (s.reg x).toNat ∧ exec (.skipKey x) s = .next (s.skipIf (s.keyAt k)) := by
  cases h : keyIndex (s.reg x) with
  | none => exact Or.inl ⟨(keyIndex_none _).1 h, by simp only [exec, execSkipKey, h, raised_eq]⟩
  | some k => exact Or.inr ⟨k, (keyIndex_some _ _).1 h, by simp only [exec, execSkipKey, h]⟩

theorem execSkipNokey_cases (s : State) (x : RegIdx) :
    (15 < (s.reg x).toNat ∧ exec (.skipNokey x) s = .next (s.raise (.keypadIndexOutOfRange s.pc (s.reg x)))) ∨
    ∃ k : RegIdx, k.val = (s.reg x).toNat ∧ exec (.skipNokey x) s = .next (s.skipIf (!s.keyAt k)) := by
  cases h : keyIndex (s.reg x) with
  | none => exact Or.inl ⟨(keyIndex_none _).1 h, by simp only [exec, execSkipNokey, h, raised_eq]⟩
  | some k => exact Or.inr ⟨k, (keyIndex_some _ _).1 h, by simp only [exec, execSkipNokey, h]⟩

theorem execBcd_cases (s : State) (x : RegIdx) :
    (0xFFD < s.i.toNat ∧ exec (.bcd x) s = .next (s.raise (s.rangeFault s.i.toNat))) ∨
    (s.i.toNat ≤ 0xFFD ∧
      exec (.bcd x) s = .next (s.setMem (s.mem.putAll s.i.toNat (bcdDigits (s.reg x)))).advance) := by
  by_cases h : s.i.toNat ≤ 0xFFD
  · have hw := Memory.writeBytes_some s.mem (s.effAddr 0) (bcdDigits (s.reg x))
      (Or.inr (by rw [bcdDigits_length, State.effAddr]; omega))
    exact Or.inr ⟨h, by simp only [exec, execBcd, hw]; rfl⟩
  · have hw := (Memory.writeBytes_none s.mem (s.effAddr 0) (bcdDigits (s.reg x))).2
      (by rw [bcdDigits_length, State.effAddr]; omega)
    exact Or.inl ⟨by omega, by simp only [exec, execBcd, hw]; rfl⟩

theorem execStoreRegs_cases (s : State) (x : RegIdx) :
    (0xFFF < s.i.toNat + x.val ∧ exec (.storeRegs x) s = .next (s.raise (s.rangeFault s.i.toNat))) ∨
    (s.i.toNat + x.val ≤ 0xFFF ∧
      exec (.storeRegs x) s = .next (s.setMem (s.mem.putAll s.i.toNat (s.regsUpTo x))).advance) := by
  by_cases h : s.i.toNat + x.val ≤ 0xFFF
  · have hw := Memory.writeBytes_some s.mem (s.effAddr 0) (s.regsUpTo x)
      (Or.inr (by rw [State.regsUpTo_length, State.effAddr]; omega))
    exact Or.inr ⟨h, by simp only [exec, execStoreRegs, hw]; rfl⟩
  · have hw := (Memory.writeBytes_none s.mem (s.effAddr 0) (s.regsUpTo x)).2
      (by rw [State.regsUpTo_length, State.effAddr]; omega)
    exact Or.inl ⟨by omega, by simp only [exec, execStoreRegs, hw]; rfl⟩

theorem execLoadRegs_cases (s : State) (x : RegIdx) :
    (0xFFF < s.i.toNat + x.val ∧ exec (.loadRegs x) s = .next (s.raise (s.rangeFault s.i.toNat))) ∨
    (s.i.toNat + x.val ≤ 0xFFF ∧
      exec (.loadRegs x) s = .next (s.setRegsFrom 0 (s.mem.getAll s.i.toNat (x.val + 1))).advance) := by
  by_cases h : s.i.toNat + x.val ≤ 0xFFF
  · have hr := Memory.readBytes_some s.mem (s.effAddr 0) (x.val + 1) (Or.inr (by rw [State.effAddr]; omega))
    exact Or.inr ⟨h, by simp only [exec, execLoadRegs, hr]; rfl⟩
  · have hr := (Memory.readBytes_none s.mem (s.effAddr 0) (x.val + 1)).2 (by rw [State.effAddr]; omega)
    exact Or.inl ⟨by omega, by simp only [exec, execLoadRegs, hr]; rfl⟩

/-- What `load-regs` puts in each register (43_index_memory.md R145). -/
theorem loadRegs_reg (s : State) (x k : RegIdx) :
    (s.setRegsFrom 0 (s.mem.getAll s.i.toNat (x.val + 1))).reg k =
      if k ≤ x then s.mem.get (s.i.toNat + k.val) else s.reg k := by
  have hl := Memory.getAll_length s.mem s.i.toNat (x.val + 1)
  rw [State.setRegsFrom_reg, if_pos (Nat.zero_le _), Nat.sub_zero]
  by_cases hk : k ≤ x
  · have hk' : k.val ≤ x.val := hk
    rw [List.getElem?_eq_getElem (by rw [hl]; omega), if_pos hk, Memory.getAll_getElem]
    rfl
  · have hk' : ¬ k.val ≤ x.val := hk
    rw [List.getElem?_eq_none (by rw [hl]; omega), if_neg hk]
    rfl

theorem execDraw_cases (s : State) (x y : RegIdx) (n : Nat) :
    (n ≠ 0 ∧ 0xFFF < s.i.toNat + (n - 1) ∧ exec (.draw x y n) s = .next (s.raise (s.rangeFault s.i.toNat))) ∨
    ((n = 0 ∨ s.i.toNat + (n - 1) ≤ 0xFFF) ∧ exec (.draw x y n) s =
      .next ((drawRows x y 0 (s.mem.getAll s.i.toNat n) (s.setFlag false)).setChanged true).advance) := by
  by_cases hd : n = 0 ∨ s.i.toNat + (n - 1) ≤ 0xFFF
  · have hr := Memory.readBytes_some s.mem (s.effAddr 0) n (by rw [State.effAddr]; omega)
    exact Or.inr ⟨hd, by simp only [exec, execDraw, hr]; rfl⟩
  · have hr := (Memory.readBytes_none s.mem (s.effAddr 0) n).2 (by rw [State.effAddr]; omega)
    exact Or.inl ⟨by omega, by omega, by simp only [exec, execDraw, hr]; rfl⟩

/-- Everything an instruction does to the fault latch: it answers a next state, in which it has raised a condition that
records its `pc` and done nothing else, or the latch is as it was (40_cycle_dispatch.md R98). -/
theorem exec_cases (i : Instr) (s : State) :
    (∃ f, f.pc = s.pc ∧ exec i s = .next (s.raise f)) ∨ ∃ t, exec i s = .next t ∧ t.fault = s.fault := by
  cases i with
  | ret =>
    rcases execRet_cases s with ⟨-, h⟩ | ⟨_, _, h⟩
    · exact Or.inl ⟨_, rfl, h⟩
    · exact Or.inr ⟨_, h, rfl⟩
  | call nnn =>
    rcases execCall_cases s nnn with ⟨-, h⟩ | ⟨_, h⟩
    · exact Or.inl ⟨_, rfl, h⟩
    · exact Or.inr ⟨_, h, rfl⟩
  | skipKey x =>
    rcases execSkipKey_cases s x with ⟨-, h⟩ | ⟨k, -, h⟩
    · exact Or.inl ⟨_, rfl, h⟩
    · exact Or.inr ⟨_, h, rfl⟩
  | skipNokey x =>
    rcases execSkipNokey_cases s x with ⟨-, h⟩ | ⟨k, -, h⟩
    · exact Or.inl ⟨_, rfl, h⟩
    · exact Or.inr ⟨_, h, rfl⟩
  | bcd x =>
    rcases execBcd_cases s x with ⟨-, h⟩ | ⟨-, h⟩
    · exact Or.inl ⟨_, rfl, h⟩
    · exact Or.inr ⟨_, h, rfl⟩
  | storeRegs x =>
    rcases execStoreRegs_cases s x with ⟨-, h⟩ | ⟨-, h⟩
    · exact Or.inl ⟨_, rfl, h⟩
    · exact Or.inr ⟨_, h, rfl⟩
  | loadRegs x =>
    rcases execLoadRegs_cases s x with ⟨-, h⟩ | ⟨-, h⟩
    · exact Or.inl ⟨_, rfl, h⟩
    · exact Or.inr ⟨_, h, by rw [State.setRegsFrom_frame]; rfl⟩
  | draw x y n =>
    rcases execDraw_cases s x y n with ⟨-, -, h⟩ | ⟨-, h⟩
    · exact Or.inl ⟨_, rfl, h⟩
    · exact Or.inr ⟨_, h, by rw [drawRows_frame]; rfl⟩
  | _ => exact Or.inr ⟨_, rfl, rfl⟩

end Sys2Proof.Machine
end

