-- ==== Sys2Proof/Laws/PerInstr.lean ====
section
/-! SUPPORT. Statements about every instruction as syntax, one lemma per constructor (LAWS.json, "per_instruction"). -/

namespace Sys2Proof.Laws

/-- The decoder reads a well-formed instruction back from its word (spec/30_encoding.md R74 to R76; log 1). -/
def RoundTrip.Statement (i : Instr) : Prop := i.wellFormed = true → decode (encode i) = .ok i

theorem RoundTrip.clearScreen : RoundTrip.Statement .clearScreen := fun _ => by decide

theorem RoundTrip.ret : RoundTrip.Statement .ret := fun _ => by decide

theorem RoundTrip.jump (nnn : Addr12) : RoundTrip.Statement (.jump nnn) := fun _ => by simp [encode, decode]

theorem RoundTrip.call (nnn : Addr12) : RoundTrip.Statement (.call nnn) := fun _ => by simp [encode, decode]

theorem RoundTrip.skipEqImm (x : RegIdx) (nn : Byte) : RoundTrip.Statement (.skipEqImm x nn) := fun _ => by simp [encode, decode]

theorem RoundTrip.skipNeImm (x : RegIdx) (nn : Byte) : RoundTrip.Statement (.skipNeImm x nn) := fun _ => by simp [encode, decode]

theorem RoundTrip.skipEqReg (x y : RegIdx) : RoundTrip.Statement (.skipEqReg x y) := fun _ => by simp [encode, decode, decodeN0]

theorem RoundTrip.loadImm (x : RegIdx) (nn : Byte) : RoundTrip.Statement (.loadImm x nn) := fun _ => by simp [encode, decode]

theorem RoundTrip.addImm (x : RegIdx) (nn : Byte) : RoundTrip.Statement (.addImm x nn) := fun _ => by simp [encode, decode]

theorem RoundTrip.move (x y : RegIdx) : RoundTrip.Statement (.move x y) := fun _ => by simp [encode, decode, decodeALU]

theorem RoundTrip.or (x y : RegIdx) : RoundTrip.Statement (.or x y) := fun _ => by simp [encode, decode, decodeALU]

theorem RoundTrip.and (x y : RegIdx) : RoundTrip.Statement (.and x y) := fun _ => by simp [encode, decode, decodeALU]

theorem RoundTrip.xor (x y : RegIdx) : RoundTrip.Statement (.xor x y) := fun _ => by simp [encode, decode, decodeALU]

theorem RoundTrip.add (x y : RegIdx) : RoundTrip.Statement (.add x y) := fun _ => by simp [encode, decode, decodeALU]

theorem RoundTrip.sub (x y : RegIdx) : RoundTrip.Statement (.sub x y) := fun _ => by simp [encode, decode, decodeALU]

theorem RoundTrip.shr (x : RegIdx) : RoundTrip.Statement (.shr x) := fun _ => by simp [encode, decode, decodeALU]

theorem RoundTrip.subn (x y : RegIdx) : RoundTrip.Statement (.subn x y) := fun _ => by simp [encode, decode, decodeALU]

theorem RoundTrip.shl (x : RegIdx) : RoundTrip.Statement (.shl x) := fun _ => by simp [encode, decode, decodeALU]

theorem RoundTrip.skipNeReg (x y : RegIdx) : RoundTrip.Statement (.skipNeReg x y) := fun _ => by simp [encode, decode, decodeN0]

theorem RoundTrip.loadI (nnn : Addr12) : RoundTrip.Statement (.loadI nnn) := fun _ => by simp [encode, decode]

theorem RoundTrip.jumpOffset (nnn : Addr12) : RoundTrip.Statement (.jumpOffset nnn) := fun _ => by simp [encode, decode]

theorem RoundTrip.rand (x : RegIdx) (nn : Byte) : RoundTrip.Statement (.rand x nn) := fun _ => by simp [encode, decode]

theorem RoundTrip.draw (x y : RegIdx) (n : Nat) : RoundTrip.Statement (.draw x y n) := fun h => by
  have hn : n < 16 := of_decide_eq_true h
  simp [encode, decode, Nat.mod_eq_of_lt hn]

theorem RoundTrip.skipKey (x : RegIdx) : RoundTrip.Statement (.skipKey x) := fun _ => by simp [encode, decode, decodeKey]

theorem RoundTrip.skipNokey (x : RegIdx) : RoundTrip.Statement (.skipNokey x) := fun _ => by simp [encode, decode, decodeKey]

theorem RoundTrip.loadDt (x : RegIdx) : RoundTrip.Statement (.loadDt x) := fun _ => by simp [encode, decode, decodeMisc]

theorem RoundTrip.waitKey (x : RegIdx) : RoundTrip.Statement (.waitKey x) := fun _ => by simp [encode, decode, decodeMisc]

theorem RoundTrip.setDt (x : RegIdx) : RoundTrip.Statement (.setDt x) := fun _ => by simp [encode, decode, decodeMisc]

theorem RoundTrip.setSt (x : RegIdx) : RoundTrip.Statement (.setSt x) := fun _ => by simp [encode, decode, decodeMisc]

theorem RoundTrip.addI (x : RegIdx) : RoundTrip.Statement (.addI x) := fun _ => by simp [encode, decode, decodeMisc]

theorem RoundTrip.fontAddr (x : RegIdx) : RoundTrip.Statement (.fontAddr x) := fun _ => by simp [encode, decode, decodeMisc]

theorem RoundTrip.bcd (x : RegIdx) : RoundTrip.Statement (.bcd x) := fun _ => by simp [encode, decode, decodeMisc]

theorem RoundTrip.storeRegs (x : RegIdx) : RoundTrip.Statement (.storeRegs x) := fun _ => by simp [encode, decode, decodeMisc]

theorem RoundTrip.loadRegs (x : RegIdx) : RoundTrip.Statement (.loadRegs x) := fun _ => by simp [encode, decode, decodeMisc]

end Sys2Proof.Laws
end

