-- ==== Sys2Proof/Laws/Step.lean ====
section
/-! SUPPORT. What a step can do, once: the cases of the cycle and of its fetch. -/

namespace Sys2Proof.Machine

/-- What the instruction of a RUNNING step sees (40_cycle_dispatch.md R90, lines 1 and 3). -/
theorem State.entered_eq (s : State) : (s.setChanged false).tickTimers = s.entered := rfl

@[simp] theorem State.entered_fetchWord (s : State) : s.entered.fetchWord = s.fetchWord := rfl
@[simp] theorem State.entered_fetched (s : State) : s.entered.fetched = s.fetched := rfl

/-- Everything a RUNNING step does after the tick (40_cycle_dispatch.md R95, R96). -/
theorem fetchAndRun_cases (run : Instr → State → Host.Outcome State Fault Refusal) (s : State) :
    (0xFFE < s.pc.toNat ∧ fetchAndRun run s = .next (s.raise (s.rangeFault s.pc.toNat))) ∨
    (∃ w e, s.fetchWord = some w ∧ decode w = .error e ∧
      fetchAndRun run s = .next (s.raise (.illegalOpcode s.pc w))) ∨
    (∃ w i, s.fetchWord = some w ∧ decode w = .ok i ∧ s.fetched = some i ∧ fetchAndRun run s = run i s) := by
  unfold fetchAndRun State.fetched
  cases hw : s.fetchWord with
  | none => exact Or.inl ⟨(State.fetchWord_none s).1 hw, rfl⟩
  | some w =>
    cases hd : decode w with
    | error e => exact Or.inr (Or.inl ⟨w, e, rfl, hd, by simp only [hd, raised_eq]⟩)
    | ok i => exact Or.inr (Or.inr ⟨w, i, rfl, hd, by simp only [hd], by simp only [hd]⟩)

/-- Everything a cycle does (40_cycle_dispatch.md R90). -/
theorem step_cases (s : State) :
    (∃ f, s.fault = some f ∧ step s = .fault f) ∨
    (s.fault = none ∧ s.waiting = true ∧ step s = .next (s.setChanged false).awaitKey) ∨
    (s.Running ∧ step s = fetchAndRun exec s.entered) := by
  unfold step runCycle State.Running
  cases hf : s.fault with
  | some f => exact Or.inl ⟨f, rfl, rfl⟩
  | none =>
    cases hw : s.waiting with
    | true => exact Or.inr (Or.inl ⟨rfl, rfl, rfl⟩)
    | false => exact Or.inr (Or.inr ⟨⟨rfl, rfl⟩, rfl⟩)

/-- A step in AWAITING_KEY changes one register and the mode at most (40_cycle_dispatch.md R93). -/
theorem State.awaitKey_frame (s : State) :
    s.awaitKey = { s with v := s.awaitKey.v, waiting := s.awaitKey.waiting } := by
  unfold State.awaitKey
  split <;> rfl

/-- Everything a step that answers a next state has done: waited for a key, raised in its fetch or its decoding, or run
the instruction at `pc`. -/
theorem step_next_cases {s t : State} (hs : step s = .next t) :
    (s.fault = none ∧ s.waiting = true ∧ t = (s.setChanged false).awaitKey) ∨
    (s.Running ∧ s.fetched = none ∧ ∃ f, f.pc = s.pc ∧ t = s.entered.raise f) ∨
    (s.Running ∧ s.pc.toNat ≤ 0xFFE ∧ ∃ i, s.fetched = some i ∧ exec i s.entered = .next t) := by
  rcases step_cases s with ⟨f, -, h⟩ | ⟨h0, hw, h⟩ | ⟨hr, h⟩
  · rw [h] at hs
    cases hs
  · rw [h] at hs
    cases hs
    exact Or.inl ⟨h0, hw, rfl⟩
  · rw [h] at hs
    rcases fetchAndRun_cases exec s.entered with ⟨hpc, h⟩ | ⟨w, e, hw, hd, h⟩ | ⟨w, i, hw, -, hi, h⟩
    · rw [h] at hs
      cases hs
      have hn : s.fetchWord = none := (State.fetchWord_none s).2 hpc
      exact Or.inr (Or.inl ⟨hr, by simp only [State.fetched, hn], _, rfl, rfl⟩)
    · rw [h] at hs
      cases hs
      have hw' : s.fetchWord = some w := hw
      exact Or.inr (Or.inl ⟨hr, by simp only [State.fetched, hw', hd], _, rfl, rfl⟩)
    · rw [h] at hs
      refine Or.inr (Or.inr ⟨hr, ?_, i, hi, hs⟩)
      have hn : ¬ s.fetchWord = none := by
        intro hn
        have hw' : s.fetchWord = some w := hw
        rw [hn] at hw'
        cases hw'
      exact Nat.le_of_not_lt fun h => hn ((State.fetchWord_none s).2 h)

end Sys2Proof.Machine
end

