-- ==== Sys2Proof/Tests/Slice0.lean ====
section
/-! SUPPORT. The model's own tests: words and vectors of spec/95_test_vectors.md (T and S numbers), words written out
from the formats of 30_encoding.md R74 and R75, and for each obligation with hypotheses a witness that meets them. -/

namespace Sys2Proof.Tests

open Machine

/-! ## Helpers -/

/-- The state after reset with the word `w` at 0x200. -/
def ready (w : Word) : State := State.reset.withFetchWord 16 w.toNat

/-- The same with `pc` at `a` and the word there. -/
def readyAt (a w : Word) : State := (State.reset.setPc a).withFetchWord 16 w.toNat

/-- Registers set. -/
def withRegs (s : State) : List (RegIdx × Byte) → State
  | [] => s
  | (r, b) :: l => withRegs (s.setReg r b) l

/-- Bytes put in memory. -/
def withBytes (s : State) (a : Nat) (bs : List Byte) : State := s.setMem (s.mem.putAll a bs)

/-- Pixels set. -/
def withPixels (s : State) : List (Fin 32 × Fin 64) → State
  | [] => s
  | (r, c) :: l => withPixels (s.setPixel r c true) l

/-- The columns of the set pixels of one row. -/
def lit (s : State) (r : Fin 32) : List (Fin 64) := (List.finRange 64).filter fun c => s.pixel r c

/-- The state an outcome answers, if it answers one. -/
def nextOf (o : Host.Outcome State Fault Refusal) : Option State :=
  match o with
  | .next t => some t
  | .fault _ => none
  | .refused _ => none

/-- The step answers a next state of which the test holds. -/
def stepGives (s : State) (test : State → Bool) : Bool := (nextOf (step s)).any test

/-- The step raises: it answers the next state in which `f` is latched and `pc` is as it was. -/
def stepRaises (s : State) (f : Fault) : Bool := stepGives s fun t => t.fault == some f && t.pc == s.pc

/-- An outcome of which something holds answers the next state it names. -/
theorem next_of_any {o : Host.Outcome State Fault Refusal} {test : State → Bool} (h : (nextOf o).any test = true) :
    ∃ t, o = .next t ∧ test t = true := by
  cases o with
  | next t => exact ⟨t, rfl, h⟩
  | fault f => cases h
  | refused r => cases h

/-! ## WellFormed: the one check refuses an ill-formed term -/

theorem test_draw_of_sixteen_rows_is_ill_formed : (Instr.draw 0 0 16).wellFormed = false := by decide
theorem test_draw_of_fifteen_rows_is_well_formed : (Instr.draw 15 15 15).wellFormed = true := by decide

/-! ## Decode: every row, its word written out bit by bit (30_encoding.md R72, R74, R75) -/

theorem test_decode_clearScreen : decode 0b0000000011100000 = .ok (.clearScreen) := by decide
theorem test_decode_ret : decode 0b0000000011101110 = .ok (.ret) := by decide
theorem test_decode_jump : decode 0b0001101010111100 = .ok (.jump 0xABC) := by decide
theorem test_decode_call : decode 0b0010101010111100 = .ok (.call 0xABC) := by decide
theorem test_decode_skipEqImm : decode 0b0011101011000011 = .ok (.skipEqImm 0xA 0xC3) := by decide
theorem test_decode_skipNeImm : decode 0b0100101011000011 = .ok (.skipNeImm 0xA 0xC3) := by decide
theorem test_decode_skipEqReg : decode 0b0101101001100000 = .ok (.skipEqReg 0xA 0x6) := by decide
theorem test_decode_loadImm : decode 0b0110101011000011 = .ok (.loadImm 0xA 0xC3) := by decide
theorem test_decode_addImm : decode 0b0111101011000011 = .ok (.addImm 0xA 0xC3) := by decide
theorem test_decode_move : decode 0b1000101001100000 = .ok (.move 0xA 0x6) := by decide
theorem test_decode_or : decode 0b1000101001100001 = .ok (.or 0xA 0x6) := by decide
theorem test_decode_and : decode 0b1000101001100010 = .ok (.and 0xA 0x6) := by decide
theorem test_decode_xor : decode 0b1000101001100011 = .ok (.xor 0xA 0x6) := by decide
theorem test_decode_add : decode 0b1000101001100100 = .ok (.add 0xA 0x6) := by decide
theorem test_decode_sub : decode 0b1000101001100101 = .ok (.sub 0xA 0x6) := by decide
theorem test_decode_shr : decode 0b1000101001100110 = .ok (.shr 0xA) := by decide
theorem test_decode_subn : decode 0b1000101001100111 = .ok (.subn 0xA 0x6) := by decide
theorem test_decode_shl : decode 0b1000101001101110 = .ok (.shl 0xA) := by decide
theorem test_decode_skipNeReg : decode 0b1001101001100000 = .ok (.skipNeReg 0xA 0x6) := by decide
theorem test_decode_loadI : decode 0b1010101010111100 = .ok (.loadI 0xABC) := by decide
theorem test_decode_jumpOffset : decode 0b1011101010111100 = .ok (.jumpOffset 0xABC) := by decide
theorem test_decode_rand : decode 0b1100101011000011 = .ok (.rand 0xA 0xC3) := by decide
theorem test_decode_draw : decode 0b1101101001101101 = .ok (.draw 0xA 0x6 13) := by decide
theorem test_decode_skipKey : decode 0b1110101010011110 = .ok (.skipKey 0xA) := by decide
theorem test_decode_skipNokey : decode 0b1110101010100001 = .ok (.skipNokey 0xA) := by decide
theorem test_decode_loadDt : decode 0b1111101000000111 = .ok (.loadDt 0xA) := by decide
theorem test_decode_waitKey : decode 0b1111101000001010 = .ok (.waitKey 0xA) := by decide
theorem test_decode_setDt : decode 0b1111101000010101 = .ok (.setDt 0xA) := by decide
theorem test_decode_setSt : decode 0b1111101000011000 = .ok (.setSt 0xA) := by decide
theorem test_decode_addI : decode 0b1111101000011110 = .ok (.addI 0xA) := by decide
theorem test_decode_fontAddr : decode 0b1111101000101001 = .ok (.fontAddr 0xA) := by decide
theorem test_decode_bcd : decode 0b1111101000110011 = .ok (.bcd 0xA) := by decide
theorem test_decode_storeRegs : decode 0b1111101001010101 = .ok (.storeRegs 0xA) := by decide
theorem test_decode_loadRegs : decode 0b1111101001100101 = .ok (.loadRegs 0xA) := by decide

/-- T20, T23 to T26, T28, T29, T31, T32, T34: illegal words with OP 0, 5, 9, 8. -/
theorem test_decode_rejects_low :
    ([0x0000, 0x00E1, 0x00FE, 0x0123, 0x01E0, 0x5121, 0x9ABF, 0x8128, 0x812D, 0x812F] : List Word).all
      (fun w => decode w = .error (.illegalOpcode w)) = true := by decide

/-- T37 to T39, T41, T42: illegal words with OP E, F. -/
theorem test_decode_rejects_high :
    ([0xE000, 0xE19F, 0xF000, 0xF175, 0xF1FF] : List Word).all (fun w => decode w = .error (.illegalOpcode w)) = true := by
  decide

/-- 20_memory.md R53: the byte at the lower address is the high byte. -/
theorem test_decodeBytes_is_big_endian : decodeBytes [0xD0, 0x12, 0x77] = .ok (.draw 0 1 2, [0x77]) := by decide
theorem test_decodeBytes_of_one_byte : decodeBytes [0x00] = .error .truncated := by decide

/-- The table's numbering: bit 0 is the least significant bit of the word (opcode_table.json, row draw). -/
theorem test_decodeTableWord : decodeTableWord 16 0xD012 = some (.draw 0 1 2) := by decide

/-! ## One step per vector -/

/-- T160. -/
theorem test_clearScreen :
    stepGives (withPixels (withRegs (ready 0x00E0) [(15, 9)]) [(3, 4), (31, 63)])
      (fun t => lit t 3 == [] && lit t 31 == [] && t.changed && t.reg 15 == 9 && t.pc == 0x202) = true := by decide

/-- T56: the slot keeps its value. -/
theorem test_ret :
    stepGives ({ readyAt 0x20C 0x00EE with sp := 1, stack := State.reset.stack.set 0 0x0206 })
      (fun t => t.pc == 0x206 && t.sp == 0 && t.stack[0] == 0x0206) = true := by decide

/-- T57. -/
theorem test_ret_underflow :
    stepRaises (ready 0x00EE) (.stackUnderflow 0x200) = true := by decide

/-- T50. -/
theorem test_jump :
    stepGives (readyAt 0x20A 0x1204)
      (fun t => t.pc == 0x204) = true := by decide

/-- T54: the return address is past the end of memory. -/
theorem test_call :
    stepGives ({ readyAt 0xFFE 0x2400 with sp := 3 })
      (fun t => t.stack[3] == 0x1000 && t.sp == 4 && t.pc == 0x400) = true := by decide

/-- T55: the tick stays, nothing else changes. -/
theorem test_call_overflow :
    stepGives ({ readyAt 0x300 0x2400 with sp := 16, dt := 1 })
      (fun t => t.fault == some (.stackOverflow 0x300) && t.pc == 0x300 && t.sp == 16 && t.dt == 0) = true := by decide

/-- T60. -/
theorem test_skipEqImm_taken :
    stepGives (withRegs (readyAt 0x208 0x3F01) [(15, 1)])
      (fun t => t.pc == 0x20C) = true := by decide

/-- T59. -/
theorem test_skipEqImm_not_taken :
    stepGives (withRegs (readyAt 0x208 0x3100) [(1, 4)])
      (fun t => t.pc == 0x20A) = true := by decide

/-- T62. -/
theorem test_skipNeImm_taken :
    stepGives (withRegs (readyAt 0x300 0x4207) [(2, 8)])
      (fun t => t.pc == 0x304) = true := by decide

/-- T61. -/
theorem test_skipNeImm_not_taken :
    stepGives (withRegs (readyAt 0x300 0x4207) [(2, 7)])
      (fun t => t.pc == 0x302) = true := by decide

/-- T64. -/
theorem test_skipEqReg_not_taken :
    stepGives (withRegs (readyAt 0x210 0x5340) [(3, 0x10), (4, 0x11)])
      (fun t => t.pc == 0x212) = true := by decide

/-- T65. -/
theorem test_skipEqReg_same_register :
    stepGives (withRegs (readyAt 0x210 0x5770) [(7, 0x5A)])
      (fun t => t.pc == 0x214) = true := by decide

/-- T66. -/
theorem test_skipNeReg_taken :
    stepGives (withRegs (readyAt 0x210 0x9340) [(3, 0x10), (4, 0x11)])
      (fun t => t.pc == 0x214) = true := by decide

/-- T67. -/
theorem test_skipNeReg_same_register :
    stepGives (withRegs (readyAt 0x210 0x9770) [(7, 0x5A)])
      (fun t => t.pc == 0x212) = true := by decide

/-- T69: register 0, not register 3. -/
theorem test_jumpOffset :
    stepGives (withRegs (ready 0xB300) [(0, 0xFF), (3, 0x55)])
      (fun t => t.pc == 0x3FF) = true := by decide

/-- T70. -/
theorem test_jumpOffset_past_memory :
    stepGives (withRegs (ready 0xBFFF) [(0, 0xFF)])
      (fun t => t.pc == 0x10FE) = true := by decide

/-- T81. -/
theorem test_loadImm :
    stepGives (withRegs (ready 0x6F00) [(15, 1)])
      (fun t => t.reg 15 == 0 && t.pc == 0x202) = true := by decide

/-- T82. -/
theorem test_addImm :
    stepGives (withRegs (ready 0x71FF) [(1, 1), (15, 0x33)])
      (fun t => t.reg 1 == 0 && t.reg 15 == 0x33) = true := by decide

/-- T84. -/
theorem test_addImm_flag_register :
    stepGives (withRegs (ready 0x7F01) [(15, 0xFF)])
      (fun t => t.reg 15 == 0) = true := by decide

/-- T85. -/
theorem test_move :
    stepGives (withRegs (ready 0x8010) [(1, 0x3C)])
      (fun t => t.reg 0 == 0x3C && t.reg 1 == 0x3C) = true := by decide

/-- T86. -/
theorem test_or :
    stepGives (withRegs (ready 0x8011) [(0, 0xF0), (1, 0x3C), (15, 0x55)])
      (fun t => t.reg 0 == 0xFC && t.reg 15 == 0x55) = true := by decide

/-- T87. -/
theorem test_and :
    stepGives (withRegs (ready 0x8012) [(0, 0xF0), (1, 0x3C), (15, 0x55)])
      (fun t => t.reg 0 == 0x30 && t.reg 15 == 0x55) = true := by decide

/-- T88. -/
theorem test_xor :
    stepGives (withRegs (ready 0x8013) [(0, 0xF0), (1, 0x3C), (15, 0x55)])
      (fun t => t.reg 0 == 0xCC && t.reg 15 == 0x55) = true := by decide

/-- T90, S3. -/
theorem test_add :
    stepGives (withRegs (ready 0x8014) [(0, 0xFF), (1, 1)])
      (fun t => t.reg 0 == 0 && t.reg 1 == 1 && t.reg 15 == 1) = true := by decide

/-- T95. -/
theorem test_add_to_flag_register :
    stepGives (withRegs (ready 0x8F04) [(15, 0xF0), (0, 0x20)])
      (fun t => t.reg 15 == 1 && t.reg 0 == 0x20) = true := by decide

/-- T98, S4. -/
theorem test_sub :
    stepGives (withRegs (ready 0x8015) [(0, 1), (1, 2)])
      (fun t => t.reg 0 == 0xFF && t.reg 15 == 0) = true := by decide

/-- T103: subtracts the new flag. -/
theorem test_sub_flag_register :
    stepGives (withRegs (ready 0x80F5) [(0, 5), (15, 3)])
      (fun t => t.reg 0 == 4 && t.reg 15 == 1) = true := by decide

/-- T108: the Y field is ignored. -/
theorem test_shr :
    stepGives (withRegs (ready 0x8276) [(2, 0xFE), (7, 0x55), (15, 1)])
      (fun t => t.reg 2 == 0x7F && t.reg 7 == 0x55 && t.reg 15 == 0) = true := by decide

/-- T111. -/
theorem test_shr_flag_register :
    stepGives (withRegs (ready 0x8F06) [(15, 3)])
      (fun t => t.reg 15 == 0) = true := by decide

/-- T112. -/
theorem test_subn :
    stepGives (withRegs (ready 0x8017) [(0, 1), (1, 2)])
      (fun t => t.reg 0 == 1 && t.reg 15 == 1) = true := by decide

/-- T117. -/
theorem test_subn_to_flag_register :
    stepGives (withRegs (ready 0x8F07) [(15, 3), (0, 8)])
      (fun t => t.reg 15 == 7 && t.reg 0 == 8) = true := by decide

/-- T120: the Y field is ignored. -/
theorem test_shl :
    stepGives (withRegs (ready 0x829E) [(2, 0x7F), (9, 0xAA), (15, 1)])
      (fun t => t.reg 2 == 0xFE && t.reg 9 == 0xAA && t.reg 15 == 0) = true := by decide

/-- T122. -/
theorem test_shl_flag_register :
    stepGives (withRegs (ready 0x8F0E) [(15, 0x80)])
      (fun t => t.reg 15 == 2) = true := by decide

/-- T124. -/
theorem test_rand :
    stepGives ((ready 0xC30F).injectRandom [0xB7, 0x01])
      (fun t => t.reg 3 == 7 && t.rndSeq == [1] && t.pc == 0x202) = true := by decide

/-- T130. -/
theorem test_loadI :
    stepGives ((ready 0xA300).setI 0xFFFF)
      (fun t => t.i == 0x300) = true := by decide

/-- T132. -/
theorem test_addI_past_the_bound :
    stepGives ((withRegs (ready 0xF11E) [(1, 1)]).setI 0x0F00)
      (fun t => t.i == 0x0F01 && t.reg 15 == 1) = true := by decide

/-- T137. -/
theorem test_addI_wraps :
    stepGives ((withRegs (ready 0xF11E) [(1, 2), (15, 1)]).setI 0xFFFF)
      (fun t => t.i == 1 && t.reg 15 == 0) = true := by decide

/-- T143: not masked to 4 bits. -/
theorem test_fontAddr :
    stepGives (withRegs (ready 0xF229) [(2, 0xFF)])
      (fun t => t.i == 0x04FB) = true := by decide

/-- T144, S8. -/
theorem test_bcd :
    stepGives ((withRegs (ready 0xF033) [(0, 234)]).setI 0x300)
      (fun t => [0x300, 0x301, 0x302, 0x303].map t.readByte == [some 2, some 3, some 4, some 0] && t.i == 0x300) = true := by decide

/-- T149: nothing is written. -/
theorem test_bcd_past_memory :
    stepGives ({ (withBytes (withRegs (ready 0xF033) [(0, 7)]) 0xFFE [0xAA]).setI 0xFFE with dt := 4 })
      (fun t => t.fault == some (.addressOutOfRange 0x200 0x1000) && t.readByte 0xFFE == some 0xAA && t.pc == 0x200 &&
        t.dt == 3) = true := by decide

/-- T151. -/
theorem test_storeRegs :
    stepGives ((withRegs (ready 0xF255) [(0, 0x11), (1, 0x22), (2, 0x33), (3, 0x44)]).setI 0x400)
      (fun t => [0x400, 0x401, 0x402, 0x403].map t.readByte == [some 0x11, some 0x22, some 0x33, some 0] && t.i == 0x400) = true := by decide

/-- T154: not even the byte in range is written. -/
theorem test_storeRegs_past_memory :
    stepGives ((withBytes (ready 0xF155) 0xFFF [0x77]).setI 0xFFF)
      (fun t => t.fault == some (.addressOutOfRange 0x200 0x1000) && t.readByte 0xFFF == some 0x77) = true := by decide

/-- T155. -/
theorem test_loadRegs :
    stepGives ((withBytes (withRegs (ready 0xF265) [(3, 0x99)]) 0x300 [2, 3, 4]).setI 0x300)
      (fun t => [0, 1, 2, 3].map t.reg == [2, 3, 4, 0x99] && t.i == 0x300) = true := by decide

/-- T157. -/
theorem test_loadRegs_past_memory :
    stepGives ((withRegs (ready 0xFF65) [(0, 0x42)]).setI 0xFF1)
      (fun t => t.fault == some (.addressOutOfRange 0x200 0x1000) && t.reg 0 == 0x42) = true := by decide

/-- T162. -/
theorem test_draw_wraps :
    stepGives ((withBytes (withRegs (ready 0xD012) [(0, 62), (1, 31)]) 0x20E [0xA0, 0xC0]).setI 0x20E)
      (fun t => lit t 0 == [62, 63] && lit t 31 == [0, 62] && lit t 1 == [] && t.reg 15 == 0 && t.changed) = true := by decide

/-- T172: the column moves when the collision sets VF. -/
theorem test_draw_at_flag_register :
    stepGives ((withPixels (withBytes (withRegs (ready 0xDF11) [(15, 10)]) 0x300 [0xFF]) [(0, 2)]).setI 0x300)
      (fun t => lit t 0 == [0, 1, 4, 5, 6, 7, 8] && t.reg 15 == 1) = true := by decide

/-- T181: the index is the value, not the field. -/
theorem test_skipKey_of_the_value :
    stepGives (((withRegs (readyAt 0x220 0xE59E) [(5, 7)]).keyDown 5))
      (fun t => t.pc == 0x222) = true := by decide

/-- T182. -/
theorem test_skipNokey :
    stepGives (withRegs (readyAt 0x220 0xE5A1) [(5, 7)])
      (fun t => t.pc == 0x224) = true := by decide

/-- T185. -/
theorem test_skipKey_past_keypad :
    stepRaises (withRegs (readyAt 0x220 0xE59E) [(5, 0x10)]) (.keypadIndexOutOfRange 0x220 0x10) = true := by decide

/-- T186: not masked to 7. -/
theorem test_skipNokey_past_keypad :
    stepRaises ((withRegs (readyAt 0x220 0xE5A1) [(5, 0x17)]).keyDown 7) (.keypadIndexOutOfRange 0x220 0x17) = true := by decide

/-- T187. -/
theorem test_waitKey :
    stepGives ({ withRegs (readyAt 0x204 0xF10A) [(1, 0xEE)] with dt := 10 })
      (fun t => t.waiting && t.waitReg == 1 && t.pc == 0x206 && t.dt == 9 && t.reg 1 == 0xEE) = true := by decide

/-- T188: reads after the tick. -/
theorem test_loadDt :
    stepGives ({ ready 0xF207 with dt := 10 })
      (fun t => t.dt == 9 && t.reg 2 == 9) = true := by decide

/-- T191: the tick is overwritten. -/
theorem test_setDt :
    stepGives ({ withRegs (ready 0xF015) [(0, 10)] with dt := 200 })
      (fun t => t.dt == 10) = true := by decide

/-- T193. -/
theorem test_setSt :
    stepGives (withRegs (ready 0xF318) [(3, 2)])
      (fun t => t.st == 2) = true := by decide

/-- T4. -/
theorem test_awaitKey_lowest_wins :
    stepGives ({ ((State.reset.setPc 0x206).keyDown 12).keyDown 5 with waiting := true, waitReg := 4, dt := 9 })
      (fun t => t.reg 4 == 5 && !t.waiting && t.dt == 9 && t.pc == 0x206) = true := by decide

/-- T3: nothing changes. -/
theorem test_awaitKey_no_key :
    let s : State := { State.reset.setPc 0x206 with waiting := true, waitReg := 4, dt := 9 }
    stepGives s (fun t => t.waiting && t.dt == 9 && t.pc == 0x206 && t.reg 4 == 0 && t.fault == none) = true := by decide

/-- T8: the fetch past the end of memory; the tick stays. -/
theorem test_fetch_past_memory :
    stepGives ({ State.reset.setPc 0xFFF with dt := 3, changed := true })
      (fun t => t.fault == some (.addressOutOfRange 0xFFF 0x1000) && t.dt == 2 && !t.changed && t.pc == 0xFFF) = true := by
  decide

/-- T9. -/
theorem test_fetch_far_past_memory :
    stepRaises (State.reset.setPc 0x10FE) (.addressOutOfRange 0x10FE 0x10FE) = true := by decide

/-- T11: an odd `pc`, and both timers at 0. -/
theorem test_fetch_odd_address :
    stepGives (readyAt 0x201 0x602A) (fun t => t.reg 0 == 0x2A && t.pc == 0x203 && t.dt == 0 && t.st == 0) = true := by
  decide

/-- T201: reset, then a step with nothing loaded. -/
theorem test_step_with_nothing_loaded : stepRaises State.reset (.illegalOpcode 0x200 0x0000) = true := by decide

/-- T203: the advisory result of a program one byte too long, and the last byte dropped. -/
theorem test_load_too_long : (State.reset.load (List.replicate 3585 0x12)).2 = .romTooLarge 3585 := by
  have h (bytes : List Byte) : (State.reset.load bytes).2 =
      if bytes.length ≤ 3584 then LoadResult.ok else .romTooLarge bytes.length := rfl
  rw [h, List.length_replicate, if_neg (by decide)]

/-- S9: a program of two bytes. -/
theorem test_load :
    ([0x1FF, 0x200, 0x201, 0x202].map (State.reset.load [0x12, 0x00]).1.readByte ==
      [some 0, some 0x12, some 0x00, some 0]) = true := by decide

/-- T205: key levels. -/
theorem test_key_levels :
    ((State.reset.keyDown 3).keyDown 3).keyAt 3 = true ∧ (((State.reset.keyDown 3).keyDown 3).keyUp 3).keyAt 3 = false := by
  decide

/-- T206: reset clears the fault and the program. -/
theorem test_hostReset :
    ({ (State.reset.load [0x12, 0x00]).1 with fault := some (.stackUnderflow 0x200) } : State).hostReset = State.reset := by
  rfl

/-- T156: the glyph of 0 in the reset memory. -/
theorem test_font : [0, 1, 2, 3, 4].map State.reset.readByte = [some 0xF0, some 0x90, some 0x90, some 0x90, some 0xF0] := by
  decide

/-! ## Witnesses: for each obligation with hypotheses, states and operands that meet them -/

theorem witness_DecodeOfEncodeIsIdentity : (Instr.draw 15 0 15).wellFormed = true := by decide

theorem witness_LegalWordReencodes :
    decode 0x8276 = .ok (.shr 2) ∧ decode 0xD01F = .ok (.draw 0 1 15) ∧
      ∀ x, Instr.draw 0 1 15 ≠ .shr x ∧ Instr.draw 0 1 15 ≠ .shl x :=
  ⟨by decide, by decide, fun _ => ⟨Instr.noConfusion, Instr.noConfusion⟩⟩

theorem witness_DecoderFollowsOpcodeMap :
    decode 0xF165 = .ok (.loadRegs 1) ∧
      (⟨"load-regs", 0xF065, 0xF0FF⟩ : OpcodeRow) ∈ opcodeRows ∧
      (⟨"load-regs", 0xF065, 0xF0FF⟩ : OpcodeRow).selects 0xF165 = true := by decide

theorem witness_OpcodeRowsNeverOverlap :
    (⟨"shl", 0x800E, 0xF00F⟩ : OpcodeRow) ∈ opcodeRows ∧ (⟨"shl", 0x800E, 0xF00F⟩ : OpcodeRow).selects 0x829E = true := by
  decide

theorem witness_IllegalWordsAreTheTable : ∀ i, decode 0x00E1 ≠ .ok i := by
  have h : decode 0x00E1 = .error (.illegalOpcode 0x00E1) := by decide
  intro i hi
  rw [h] at hi
  cases hi

theorem witness_EveryRowDecodesItsOperands :
    (15 < 16) ∧ decode (BitVec.ofNat 16 (0xD000 + 15 * 256 + 15 * 16 + 15)) = .ok (.draw 15 15 15) := by decide

theorem witness_FetchIsBigEndian : (State.reset.setPc 0xFFE).pc.toNat ≤ 0xFFE := by decide

theorem witness_StepRunsTheDecodedInstruction :
    (readyAt 0xFFE 0x1200).Running ∧ (readyAt 0xFFE 0x1200).readByte 0xFFE = some 0x12 ∧
      (readyAt 0xFFE 0x1200).readByte 0xFFF = some 0x00 ∧ decodeBytes [0x12, 0x00] = .ok (.jump 0x200, []) :=
  ⟨⟨by decide, by decide⟩, by decide, by decide, by decide⟩

theorem witness_PlacedWordIsRunNext : decode 0xF10A = .ok (.waitKey 1) := by decide

theorem witness_FaultedMachineNeverMoves :
    ({ State.reset with fault := some (.stackUnderflow 0x200) } : State).fault = some (.stackUnderflow 0x200) := rfl

theorem witness_ChangedTellsWhatTheStepDrew :
    (∃ t, step (ready 0xD120) = .next t ∧ t.changed = true) ∧
      ∃ t, step ((ready 0xD011).setI 0x2000) = .next t ∧ (!t.changed) = true :=
  ⟨next_of_any (by decide), next_of_any (by decide)⟩

theorem witness_AwaitingKeyStep :
    (let s : State := { State.reset.keyDown 15 with waiting := true, waitReg := 15 };
      s.fault = none ∧ s.waiting = true ∧ s.keyAt 15 = true ∧ ∀ j < 15, s.keyAt j = false) ∧
    (let s : State := { State.reset with waiting := true };
      s.fault = none ∧ s.waiting = true ∧ (∀ k, s.keyAt k = false) ∧ s.changed = false) := by decide

theorem witness_TimersTickBeforeTheInstruction :
    (ready 0xF015).Running ∧ (ready 0xF015).fetched = some (.setDt 0) ∧ (ready 0xF318).fetched = some (.setSt 3) ∧
      (ready 0xF207).fetched = some (.loadDt 2) ∧ (ready 0x00E0).fetched = some .clearScreen :=
  ⟨⟨by decide, by decide⟩, by decide, by decide, by decide, by decide⟩

theorem witness_FetchAndDecodeFailuresRaise_fetch :
    (State.reset.setPc 0xFFF).Running ∧ 0xFFE < (State.reset.setPc 0xFFF).pc.toNat ∧
      (State.reset.setPc 0x1000).Running ∧ 0xFFE < (State.reset.setPc 0x1000).pc.toNat :=
  ⟨⟨by decide, by decide⟩, by decide, ⟨by decide, by decide⟩, by decide⟩

theorem witness_FetchAndDecodeFailuresRaise_decode :
    (ready 0x5121).Running ∧ (ready 0x5121).readByte 0x200 = some 0x51 ∧ (ready 0x5121).readByte 0x201 = some 0x21 ∧
      ∀ i, decodeBytes [0x51, 0x21] ≠ .ok (i, []) := by
  refine ⟨⟨by decide, by decide⟩, by decide, by decide, fun i hi => ?_⟩
  have h : decodeBytes [0x51, 0x21] = .error (.illegalOpcode 0x5121) := by decide
  rw [h] at hi
  cases hi

theorem witness_RaisingStepIsPrecise :
    (∃ t, step (readyAt 0xFFE 0x00EE) = .next t ∧ (t.fault == some (.stackUnderflow 0xFFE)) = true) ∧
      ∃ t, step (readyAt 0xFFE 0x1200) = .next t ∧ t.fault.isNone = true :=
  ⟨next_of_any (by decide), next_of_any (by decide)⟩

theorem witness_NextPcTable :
    (ready 0x00EE).fault = none ∧ (∃ t, exec .ret (ready 0x00EE) = .next t ∧ t.fault.isSome = true) ∧
      (∃ t, exec (.loadRegs 15) (State.reset.setI 0xFF0) = .next t ∧ t.fault.isNone = true) ∧
      (∃ t, step ({ State.reset with waiting := true } : State) = .next t ∧ t.waiting = true) ∧
      (State.reset.setPc 0xFFE).pc.toNat ≤ 0xFFE :=
  ⟨by decide, next_of_any (by decide), next_of_any (by decide), next_of_any (by decide), by decide⟩

theorem witness_ModeStateMachine_running :
    (ready 0xFF0A).waiting = false ∧ (ready 0xFF0A).fetched = some (.waitKey 15) ∧
      (∃ t, step (ready 0xFF0A) = .next t ∧ t.waiting = true) ∧
      ∃ t, step State.reset = .next t ∧ t.fault.isSome = true :=
  ⟨by decide, by decide, next_of_any (by decide), next_of_any (by decide)⟩

theorem witness_ModeStateMachine_awaiting :
    (∃ t, step ({ (State.reset.keyDown 15).keyDown 3 with waiting := true } : State) = .next t ∧
      (!t.waiting) = true) ∧
    ((State.reset.keyDown 15).keyDown 3).keyAt 3 = true ∧
    (∀ j < 3, ((State.reset.keyDown 15).keyDown 3).keyAt j = false) ∧
    (∃ t, step ({ State.reset with waiting := true } : State) = .next t ∧ t.waiting = true) ∧
    (∀ k, State.reset.keyAt k = false) ∧ State.reset.changed = false :=
  ⟨next_of_any (by decide), by decide, by decide, next_of_any (by decide), by decide, by decide⟩

theorem witness_ReturnPopsIntoPc :
    ({ State.reset with sp := 1 } : State).sp.val = (0 : Fin 16).val + 1 ∧
      ({ State.reset with sp := 16 } : State).sp.val = (15 : Fin 16).val + 1 ∧ State.reset.sp.val = 0 := by decide

theorem witness_CallPushesReturnAddress :
    State.reset.sp.val = (0 : Fin 16).val ∧ ({ State.reset with sp := 15 } : State).sp.val = (15 : Fin 16).val ∧
      ({ State.reset with sp := 16 } : State).sp.val = 16 := by decide

theorem witness_ReturnUndoesCall :
    ({ State.reset with sp := 15 } : State).sp.val < 16 ∧
      ∃ t, exec (.call 0x400) { State.reset with sp := 15 } = .next t ∧ (t.sp == 16) = true :=
  ⟨by decide, next_of_any (by decide)⟩

theorem witness_BcdStoresThreeDigits : (State.reset.setI 0xFFD).i.toNat ≤ 0xFFD := by decide

theorem witness_StoreRegsCopiesRegisters :
    (State.reset.setI 0xFF0).i.toNat + (15 : RegIdx).val ≤ 0xFFF ∧
      (State.reset.setI 0xFFF).i.toNat + (0 : RegIdx).val ≤ 0xFFF := by decide

theorem witness_LoadRegsCopiesMemory :
    (State.reset.setI 0xFF0).i.toNat + (15 : RegIdx).val ≤ 0xFFF ∧
      (State.reset.setI 0xFFF).i.toNat + (0 : RegIdx).val ≤ 0xFFF := by decide

theorem witness_StoreThenLoadRestoresRegisters :
    (State.reset.setI 0xFF0).i.toNat + (15 : RegIdx).val ≤ 0xFFF ∧
      ∃ t, exec (.storeRegs 15) (State.reset.setI 0xFF0) = .next t ∧ (t.i == (State.reset.setI 0xFF0).i) = true :=
  ⟨by decide, next_of_any (by decide)⟩

theorem witness_FetchSeesStoredBytes :
    (State.reset.setI 0x202).i.toNat + (1 : RegIdx).val ≤ 0xFFF ∧
      (∃ t, exec (.storeRegs 1) (withRegs (State.reset.setI 0x202) [(0, 0x12)]) = .next t ∧ (t.pc == 0x202) = true) ∧
      (1 : RegIdx).val = (0 : RegIdx).val + 1 ∧ (State.reset.setPc 0x202).pc.toNat = 0x202 + (0 : RegIdx).val :=
  ⟨by decide, next_of_any (by decide), by decide, by decide⟩

theorem witness_DataOutsideMemoryRaises :
    0xFFD < (State.reset.setI 0xFFE).i.toNat ∧ 0xFFF < (State.reset.setI 0xFFF).i.toNat + (1 : RegIdx).val ∧
      0xFFF < (State.reset.setI 0x1000).i.toNat + (0 : RegIdx).val ∧ 0 < 2 ∧
      0xFFF < (State.reset.setI 0xFFF).i.toNat + (2 - 1) := by decide

theorem witness_ClearScreenZeroesTheDisplay :
    (readyAt 0xFFE 0x00E0).Running ∧ (readyAt 0xFFE 0x00E0).readByte 0xFFE = some 0x00 ∧
      (readyAt 0xFFE 0x00E0).readByte 0xFFF = some 0xE0 ∧ (readyAt 0xFFE 0x00E0).pc.toNat = 0xFFE :=
  ⟨⟨by decide, by decide⟩, by decide, by decide, by decide⟩

/-- T173: the row moves when the collision sets `VF`. -/
theorem witness_DrawRunsBitByBit :
    let s := (withPixels (withBytes (withRegs State.reset [(15, 7)]) 0x300 [0x80, 0x80]) [(0, 0)]).setI 0x300
    (2 = 0 ∨ s.i.toNat + (2 - 1) ≤ 0xFFF) ∧
      ∃ t, exec (.draw 0 15 2) s = .next t ∧ (lit t 0 == [] && lit t 2 == [0] && t.reg 15 == 1) = true :=
  ⟨by decide, next_of_any (by decide)⟩

/-- T164 and T165: a collision, and a set pixel under a zero sprite bit. -/
theorem witness_DrawXorsTheSprite :
    let s := (withBytes (withRegs State.reset [(2, 10), (3, 5)]) 0x300 [0x90]).setI 0x300
    (2 : RegIdx) ≠ 15 ∧ (3 : RegIdx) ≠ 15 ∧ (1 < 16) ∧ s.i.toNat + (1 - 1) ≤ 0xFFF ∧
      (∃ t, exec (.draw 2 3 1) (withPixels s [(5, 10), (5, 11)]) = .next t ∧
        (lit t 5 == [11, 13] && t.reg 15 == 1) = true) ∧
      ∃ t, exec (.draw 2 3 1) (withPixels s [(5, 11)]) = .next t ∧ (lit t 5 == [10, 11, 13] && t.reg 15 == 0) = true :=
  ⟨by decide, by decide, by decide, by decide, next_of_any (by decide), next_of_any (by decide)⟩

theorem witness_DrawTwiceRestoresTheDisplay :
    (0 : RegIdx) ≠ 15 ∧ (1 : RegIdx) ≠ 15 ∧ (15 < 16) ∧ (State.reset.setI 0xFF1).i.toNat + (15 - 1) ≤ 0xFFF := by decide

theorem witness_SkipOnKeyLevel :
    (15 : RegIdx).val = ((withRegs State.reset [(5, 15)]).reg 5).toNat ∧
      15 < ((withRegs State.reset [(5, 16)]).reg 5).toNat := by decide

theorem witness_ReadGivesTheLastWrite :
    (Memory.writeBytes [] 0xFFE [0xAB, 0xCD] = some [(0xFFE, 0xAB), (0xFFF, 0xCD)]) ∧
      Memory.writeBytes [] 0xFFF [0xAB, 0xCD] = none := by decide

theorem witness_CanonicalMemoriesWithEqualReadsAreEqual :
    Memory.wf [(0x000, 0x12), (0xFFF, 0xCD)] = true ∧
      ∀ a, Memory.read [(0x000, 0x12), (0xFFF, 0xCD)] a = Memory.read [(0x000, 0x12), (0xFFF, 0xCD)] a :=
  ⟨by decide, fun _ => rfl⟩

/-- T206: a faulted, waiting state with a program, a register, a key and an injected byte. -/
theorem witness_ResetState :
    let u : State := { ((ready 0x00EE).setReg 15 1).keyDown 15 with
      fault := some (.stackUnderflow 0x200), waiting := true, rndSeq := [7] }
    (∃ v : State, u.hostReset = v.hostReset) ∧ u.hostReset ≠ u := by
  refine ⟨⟨_, rfl⟩, fun h => ?_⟩
  exact absurd (congrArg State.waiting h) (by decide)

theorem witness_HostContractViolationsHaveNoMove :
    (Session.new.apply (.load [0x12, 0x00])).isSome = true ∧
      (15 : RegIdx).val = 15 ∧ (Session.new.apply (.keyDown 15)).isSome = true ∧
      (Session.new.apply (.keyUp 15)).isSome = true ∧
      ((⟨State.reset, true⟩ : Session).apply (.keyDown 0)).any (fun m => m.stepped) = true ∧
      ((⟨State.reset, true⟩ : Session).apply .reset).any (fun m => !m.stepped) = true ∧
      (Session.new.apply .step).any (fun m => m.stepped) = true := by decide

/-- Log 32: a second load before the first step overlays its bytes. -/
theorem test_second_load :
    (Session.run [.load [0x12, 0x34], .load [0x56]] Session.new).any
      (fun m => [0x200, 0x201].map m.state.readByte == [some 0x56, some 0x34]) = true := by decide

theorem witness_LoadPlacesTheProgram : 1 < ([0x12, 0x00] : List Byte).length ∧ 1 < 3584 := by decide

theorem witness_KeysAreSetByTheHostOnly :
    (∃ t, exec (.skipKey 0) (State.reset.keyDown 0) = .next t ∧ (t.pc == 0x204) = true) ∧
      ∃ t, step ((ready 0xE09E).keyDown 0) = .next t ∧ (t.pc == 0x204) = true :=
  ⟨next_of_any (by decide), next_of_any (by decide)⟩

theorem witness_NoInstructionWritesMoreThanItsEffect :
    (∃ t, exec (.storeRegs 15) State.reset = .next t ∧ t.fault.isNone = true) ∧
      (∀ nnn, Instr.storeRegs 15 ≠ .call nnn) ∧ (Instr.loadRegs 15).storesMemory = false ∧
      (Instr.storeRegs 15).touchesDisplay = false :=
  ⟨next_of_any (by decide), fun _ => Instr.noConfusion, by decide, by decide⟩

theorem witness_RegistersChangeOnlyAsDestinationOrFlag :
    (∃ t, exec (.or 0 1) State.reset = .next t ∧ (t.pc == 0x202) = true) ∧
      (Instr.or 0 1).hasDest 15 = false ∧ (Instr.or 0 1).writesFlag = false :=
  ⟨next_of_any (by decide), by decide, by decide⟩

theorem witness_SoundTimerDrivesNothing :
    ∃ t, step ({ ready 0xF207 with st := 200 } : State) = .next t ∧ (t.st == 199) = true :=
  next_of_any (by decide)

/-- A state with memory listed, the stack full and a call to run. -/
theorem witness_StepKeepsTheInvariant :
    State.Inv { ready 0x2400 with sp := 15 } ∧
      ∃ t, step { ready 0x2400 with sp := 15 } = .next t ∧ (t.sp == 16) = true :=
  ⟨⟨by decide, by decide, by decide, by decide, fun _ hf => nomatch hf⟩, next_of_any (by decide)⟩

theorem witness_EverySessionHasTheInvariant :
    (Session.run [.load [0x12, 0x00], .keyDown 15, .injectRandom [7], .step, .reset, .step, .step] Session.new).isSome =
      true := by decide

theorem witness_EverySessionHasTheInvariant_move :
    State.Inv { ready 0x2400 with sp := 15 } ∧
      ((⟨{ ready 0x2400 with sp := 15 }, false⟩ : Session).apply .step).isSome = true :=
  ⟨witness_StepKeepsTheInvariant.1, by decide⟩

end Sys2Proof.Tests
end

section
/-! Proofs about memory (20_memory.md): what a host read gives in range, and the fetch. -/
namespace Sys2Proof.Machine

/-- 20_memory.md R52: an address below 0x1000 has a byte. -/
theorem State.readByte_some (s : State) {a : Nat} (h : a ≤ 0xFFF) : s.readByte a = some (s.mem.get a) := by
  rw [State.readByte, Memory.read_eq, if_pos (Nat.lt_succ_of_le h)]

/-- Settles O8: the fetch joins the two bytes that reads at `pc` and `pc + 1` give, the first one high. -/
theorem fetchIsBigEndian : Obligations.FetchIsBigEndian := by
  intro s hpc
  have hhi : s.pc.toNat ≤ 0xFFF := by omega
  have hlo : s.pc.toNat + 1 ≤ 0xFFF := by omega
  exact ⟨_, _, _, s.readByte_some hhi, s.readByte_some hlo, s.fetchWord_some hpc, wordOfBytes_toNat _ _⟩

end Sys2Proof.Machine
end

section
/-! Frames of the state's updates: how `OnlyChanges` composes and what each update used by the AWAITING_KEY step may
change. -/
namespace Sys2Proof.Machine

theorem Part.Same.trans {p : Part} {s t u : State} (hst : p.Same s t) (htu : p.Same t u) : p.Same s u := by
  cases p <;> exact Eq.trans htu hst

theorem OnlyChanges.trans {s t u : State} {may : Part → Prop} (hst : OnlyChanges s t may) (htu : OnlyChanges t u may) :
    OnlyChanges s u may :=
  fun p hp => (hst p hp).trans (htu p hp)

theorem OnlyChanges.mono {s t : State} {may may' : Part → Prop} (h : OnlyChanges s t may)
    (hle : ∀ p, may p → may' p) : OnlyChanges s t may' :=
  fun p hp => h p fun hm => hp (hle p hm)

theorem onlyChanges_setChanged (s : State) (b : Bool) : OnlyChanges s (s.setChanged b) (· = .changed) := by
  intro p hp
  cases p with
  | changed => exact absurd rfl hp
  | _ => rfl

theorem onlyChanges_setReg (s : State) (r : RegIdx) (b : Byte) : OnlyChanges s (s.setReg r b) (· = .reg r) := by
  intro p hp
  cases p with
  | reg q =>
    have hq : q ≠ r := fun e => hp (congrArg Part.reg e)
    exact (State.setReg_reg s r b q).trans (if_neg hq)
  | _ => rfl

theorem onlyChanges_endWait (s : State) : OnlyChanges s s.endWait (· = .waiting) := by
  intro p hp
  cases p with
  | waiting => exact absurd rfl hp
  | _ => rfl

end Sys2Proof.Machine
end

section
/-! The AWAITING_KEY step (40_cycle_dispatch.md R93). -/
namespace Sys2Proof.Machine

theorem byteOfIdx_toNat (k : RegIdx) : (byteOfIdx k).toNat = k.val := by
  have := k.isLt
  rw [BitVec.toNat_ofNat]
  omega

theorem State.setChanged_of_eq {s : State} {b : Bool} (h : s.changed = b) : s.setChanged b = s := by
  subst h
  rfl

theorem step_of_waiting {s : State} (hf : s.fault = none) (hw : s.waiting = true) :
    step s = .next (s.setChanged false).awaitKey := by
  rcases step_cases s with ⟨f, hf', -⟩ | ⟨-, -, h⟩ | ⟨⟨-, hw'⟩, -⟩
  · exact absurd (hf.symm.trans hf') (by simp)
  · exact h
  · exact absurd (hw.symm.trans hw') (by decide)

theorem State.awaitKey_of_lowest {s : State} {k : RegIdx} (hk : s.keyAt k = true) (hlow : ∀ j < k, s.keyAt j = false) :
    s.awaitKey = (s.setReg s.waitReg (byteOfIdx k)).endWait := by
  simp only [State.awaitKey, (s.firstPressed_some k).2 ⟨hk, hlow⟩]

theorem State.awaitKey_of_none {s : State} (h : ∀ k, s.keyAt k = false) : s.awaitKey = s := by
  simp only [State.awaitKey, s.firstPressed_none.2 h]

/-- Settles O14: the step clears `changed` and then scans the keys; the frame is that of the three updates of
`awaitKey` in turn. -/
theorem awaitingKeyStep : Obligations.AwaitingKeyStep := by
  intro s hf hw
  have hstep := step_of_waiting hf hw
  have hclear := onlyChanges_setChanged s false
  refine ⟨fun k hk hlow => ?_, fun hnone => ?_, fun hnone hc => ?_⟩
  · have hkey := State.awaitKey_of_lowest (s := s.setChanged false) hk hlow
    refine ⟨_, hkey ▸ hstep, ?_, rfl, rfl, ?_⟩
    · rw [State.endWait_reg, State.setReg_reg, State.setChanged_waitReg, if_pos rfl, byteOfIdx_toNat]
    · exact ((hclear.mono fun _ h => .inr (.inr h)).trans
        ((onlyChanges_setReg _ _ _).mono fun _ h => .inl h)).trans
        ((onlyChanges_endWait _).mono fun _ h => .inr (.inl h))
  · have hkey := State.awaitKey_of_none (s := s.setChanged false) hnone
    exact ⟨_, hkey ▸ hstep, rfl, hclear⟩
  · rw [hstep, State.setChanged_of_eq hc, State.awaitKey_of_none hnone]

end Sys2Proof.Machine
end

section
/-! What an instruction does to the two timers and to `changed`, and the RUNNING step around it
(40_cycle_dispatch.md R92, R94). -/
namespace Sys2Proof

open Machine

/-- `DT` after an instruction that finds the state `s` (45_keypad_timers.md R164): `set-dt` alone writes it. -/
def Instr.nextDt (s : State) : Instr → Byte
  | .setDt x => s.reg x
  | _ => s.dt

/-- `ST` after an instruction that finds the state `s` (45_keypad_timers.md R165): `set-st` alone writes it. -/
def Instr.nextSt (s : State) : Instr → Byte
  | .setSt x => s.reg x
  | _ => s.st

theorem Instr.nextDt_of_not_setDt {i : Instr} (s : State) (h : ∀ x, i ≠ .setDt x) : i.nextDt s = s.dt := by
  unfold Instr.nextDt
  split
  · exact absurd rfl (h _)
  · rfl

theorem Instr.nextSt_of_not_setSt {i : Instr} (s : State) (h : ∀ x, i ≠ .setSt x) : i.nextSt s = s.st := by
  unfold Instr.nextSt
  split
  · exact absurd rfl (h _)
  · rfl

namespace Machine

/-- Whether or not it raises, an instruction leaves the timers as `nextDt` and `nextSt` say, and one that is neither
`clear-screen` nor `draw` leaves `changed`. -/
theorem exec_timers_changed (i : Instr) (s : State) : ∃ t, exec i s = .next t ∧
    t.dt = i.nextDt s ∧ t.st = i.nextSt s ∧ (i.touchesDisplay = false → t.changed = s.changed) := by
  cases i with
  | ret => rcases execRet_cases s with ⟨-, h⟩ | ⟨_, _, h⟩ <;> exact ⟨_, h, rfl, rfl, fun _ => rfl⟩
  | call nnn => rcases execCall_cases s nnn with ⟨-, h⟩ | ⟨_, h⟩ <;> exact ⟨_, h, rfl, rfl, fun _ => rfl⟩
  | skipKey x => rcases execSkipKey_cases s x with ⟨-, h⟩ | ⟨_, -, h⟩ <;> exact ⟨_, h, rfl, rfl, fun _ => rfl⟩
  | skipNokey x => rcases execSkipNokey_cases s x with ⟨-, h⟩ | ⟨_, -, h⟩ <;> exact ⟨_, h, rfl, rfl, fun _ => rfl⟩
  | bcd x => rcases execBcd_cases s x with ⟨-, h⟩ | ⟨-, h⟩ <;> exact ⟨_, h, rfl, rfl, fun _ => rfl⟩
  | storeRegs x => rcases execStoreRegs_cases s x with ⟨-, h⟩ | ⟨-, h⟩ <;> exact ⟨_, h, rfl, rfl, fun _ => rfl⟩
  | loadRegs x =>
    rcases execLoadRegs_cases s x with ⟨-, h⟩ | ⟨-, h⟩
    · exact ⟨_, h, rfl, rfl, fun _ => rfl⟩
    · rw [State.setRegsFrom_frame] at h
      exact ⟨_, h, rfl, rfl, fun _ => rfl⟩
  | draw x y n =>
    rcases execDraw_cases s x y n with ⟨-, -, h⟩ | ⟨-, h⟩
    · exact ⟨_, h, rfl, rfl, fun _ => rfl⟩
    · rw [drawRows_frame] at h
      exact ⟨_, h, rfl, rfl, fun hd => nomatch hd⟩
  | clearScreen => exact ⟨_, rfl, rfl, rfl, fun hd => nomatch hd⟩
  | _ => exact ⟨_, rfl, rfl, rfl, fun _ => rfl⟩

/-- `clear-screen` and `draw` set `changed` unless they raise (44_display.md R150, R151). -/
theorem exec_touchesDisplay_cases {i : Instr} (s : State) (hi : i.touchesDisplay = true) :
    (∃ f, exec i s = .next (s.raise f)) ∨ ∃ t, exec i s = .next t ∧ t.fault = s.fault ∧ t.changed = true := by
  cases i with
  | clearScreen => exact .inr ⟨_, rfl, rfl, rfl⟩
  | draw x y n =>
    rcases execDraw_cases s x y n with ⟨-, -, h⟩ | ⟨-, h⟩
    · exact .inl ⟨_, h⟩
    · rw [drawRows_frame] at h
      exact .inr ⟨_, h, rfl, rfl⟩
  | _ => cases hi

/-- An instruction that finds no condition latched and `changed` clear sets `changed` exactly when it draws and raises
nothing. -/
theorem exec_changed_iff {i : Instr} {s t : State} (h : exec i s = .next t) (hf : s.fault = none)
    (hc : s.changed = false) : t.changed = true ↔ t.fault = none ∧ i.touchesDisplay = true := by
  cases hi : i.touchesDisplay with
  | false =>
    obtain ⟨u, hu, -, -, hkeep⟩ := exec_timers_changed i s
    cases hu.symm.trans h
    simp [hkeep hi, hc]
  | true =>
    rcases exec_touchesDisplay_cases s hi with ⟨f, hr⟩ | ⟨u, hu, huf, huc⟩
    · cases hr.symm.trans h
      simp [hc]
    · cases hu.symm.trans h
      simp [huf, huc, hf]

/-- Settles O13: line 1 of the step clears `changed`, and only the instruction can set it again. -/
theorem changedTellsWhatTheStepDrew : Obligations.ChangedTellsWhatTheStepDrew := by
  intro s t hs
  rcases step_next_cases hs with ⟨-, hw, rfl⟩ | ⟨-, hn, f, -, rfl⟩ | ⟨⟨hf, hw⟩, -, i, hi, h⟩
  · rw [State.awaitKey_frame]
    simp [hw]
  · simp [hn, State.entered]
  · rw [exec_changed_iff h hf rfl]
    simp [hw, hi]

/-- Line 3 of the step (40_cycle_dispatch.md R94): the delay timer is one less, floor at 0. -/
theorem State.entered_dt_toNat (s : State) : s.entered.dt.toNat = s.dt.toNat - 1 := tick_toNat s.dt

/-- Line 3 of the step (40_cycle_dispatch.md R94): the sound timer is one less, floor at 0. -/
theorem State.entered_st_toNat (s : State) : s.entered.st.toNat = s.st.toNat - 1 := tick_toNat s.st

theorem step_of_running {s : State} (hr : s.Running) : step s = fetchAndRun exec s.entered := by
  obtain ⟨hf, hw⟩ := hr
  rcases step_cases s with ⟨f, hf', -⟩ | ⟨-, hw', -⟩ | ⟨-, h⟩
  · exact absurd (hf.symm.trans hf') (by simp)
  · exact absurd (hw.symm.trans hw') (by decide)
  · exact h

/-- The step of a RUNNING machine always answers a next state (40_cycle_dispatch.md R90). -/
theorem State.Running.step_next {s : State} (hr : s.Running) : ∃ t, step s = .next t := by
  have hstep := step_of_running hr
  rcases fetchAndRun_cases exec s.entered with ⟨-, h⟩ | ⟨_, _, -, -, h⟩ | ⟨_, i, -, -, -, h⟩
  · exact ⟨_, hstep.trans h⟩
  · exact ⟨_, hstep.trans h⟩
  · obtain ⟨t, ht, -⟩ := exec_timers_changed i s.entered
    exact ⟨t, hstep.trans (h.trans ht)⟩

/-- Settles O15: the instruction finds both timers ticked, and only `set-dt` and `set-st` write one after that. -/
theorem timersTickBeforeTheInstruction : Obligations.TimersTickBeforeTheInstruction := by
  intro s hr
  obtain ⟨t, hs⟩ := hr.step_next
  refine ⟨t, hs, ?_⟩
  rcases step_next_cases hs with ⟨-, hw, -⟩ | ⟨-, hn, f, -, rfl⟩ | ⟨-, -, i, hi, h⟩
  · exact absurd (hw.symm.trans hr.2) (by decide)
  · exact ⟨fun _ => s.entered_dt_toNat, fun _ => s.entered_st_toNat, by simp [hn]⟩
  · obtain ⟨u, hu, hdt, hst, -⟩ := exec_timers_changed i s.entered
    cases hu.symm.trans h
    refine ⟨fun hx => ?_, fun hx => ?_, fun x hx => ?_, fun x hx => ?_, fun x hx => ?_⟩
    · rw [hdt, Instr.nextDt_of_not_setDt _ fun x e => hx x (e ▸ hi), s.entered_dt_toNat]
    · rw [hst, Instr.nextSt_of_not_setSt _ fun x e => hx x (e ▸ hi), s.entered_st_toNat]
    · cases hi.symm.trans hx
      exact hdt
    · cases hi.symm.trans hx
      exact hst
    · cases hi.symm.trans hx
      cases h
      rw [State.advance_reg, State.setReg_reg, if_pos rfl, s.entered_dt_toNat]

end Machine

end Sys2Proof
end

section
/-! Frames of the two updates `clear-screen` makes beside `changed`. -/
namespace Sys2Proof.Machine

theorem onlyChanges_advance (s : State) : OnlyChanges s s.advance (· = .pc) := by
  intro p hp
  cases p with
  | pc => exact absurd rfl hp
  | _ => rfl

theorem onlyChanges_clearDisplay (s : State) : OnlyChanges s s.clearDisplay fun p => ∃ r c, p = .pixel r c := by
  intro p hp
  cases p with
  | pixel r c => exact absurd ⟨r, c, rfl⟩ hp
  | _ => rfl

end Sys2Proof.Machine
end

section
/-! From the bytes read at `pc` to the instruction a RUNNING step executes (20_memory.md R53, 40_cycle_dispatch.md
R96). -/
namespace Sys2Proof.Machine

theorem State.readByte_eq_some {s : State} {a : Nat} {b : Byte} (h : s.readByte a = some b) :
    a ≤ 0xFFF ∧ s.mem.get a = b := by
  rw [State.readByte, Memory.read_eq] at h
  split at h
  next ha => exact ⟨Nat.le_of_lt_succ ha, Option.some.inj h⟩
  next => cases h

/-- 20_memory.md R53: when both bytes at `pc` can be read, the fetch gives their word. -/
theorem State.fetchWord_of_readByte {s : State} {hi lo : Byte} (hhi : s.readByte s.pc.toNat = some hi)
    (hlo : s.readByte (s.pc.toNat + 1) = some lo) : s.fetchWord = some (wordOfBytes hi lo) := by
  obtain ⟨-, rfl⟩ := State.readByte_eq_some hhi
  obtain ⟨hle, rfl⟩ := State.readByte_eq_some hlo
  exact s.fetchWord_some (by omega)

/-- 40_cycle_dispatch.md R90, R96: a RUNNING step that fetches a legal word runs its instruction after the tick. -/
theorem step_of_fetchWord {s : State} {w : Word} {i : Instr} (hr : s.Running) (hw : s.fetchWord = some w)
    (hi : decode w = .ok i) : step s = exec i s.entered := by
  simp only [step_of_running hr, fetchAndRun, State.entered_fetchWord, hw, hi]

end Sys2Proof.Machine
end

section
/-! `clear-screen` (44_display.md R150), as an instruction and as a step. -/
namespace Sys2Proof.Machine

theorem exec_clearScreen (s : State) : exec .clearScreen s = .next (s.clearDisplay.setChanged true).advance := rfl

theorem exec_clearScreen_clears (s : State) : ∃ t, exec .clearScreen s = .next t ∧
    (∀ r c, t.pixel r c = false) ∧ t.changed = true ∧ t.pc = s.pc + 2 ∧
    OnlyChanges s t fun p => p = .pc ∨ p = .changed ∨ ∃ r c, p = .pixel r c := by
  refine ⟨_, exec_clearScreen s, s.clearDisplay_pixel, rfl, rfl, ?_⟩
  exact (((onlyChanges_clearDisplay s).mono fun _ h => .inr (.inr h)).trans
    ((onlyChanges_setChanged _ true).mono fun _ h => .inr (.inl h))).trans
    ((onlyChanges_advance _).mono fun _ h => .inl h)

/-- Settles O42: the step fetches the word 0x00E0, so it is `clear-screen` run on the entered state. -/
theorem clearScreenZeroesTheDisplay : Obligations.ClearScreenZeroesTheDisplay := by
  have hdecode : decode 0x00E0 = .ok .clearScreen := by decide
  refine ⟨hdecode, exec_clearScreen_clears, fun s hr hhi hlo => ?_⟩
  have hstep : step s = exec .clearScreen s.entered :=
    step_of_fetchWord hr (State.fetchWord_of_readByte hhi hlo) hdecode
  rw [hstep]
  exact exec_clearScreen_clears s.entered

end Sys2Proof.Machine
end

section
/-! Encoding and decoding (30_encoding.md sections 3 to 6). -/
namespace Sys2Proof

/-- Settles O1: one round trip per constructor (`Laws.RoundTrip`). -/
theorem decodeOfEncodeIsIdentity : Obligations.DecodeOfEncodeIsIdentity := by
  intro i
  cases i with
  | clearScreen => exact Laws.RoundTrip.clearScreen
  | ret => exact Laws.RoundTrip.ret
  | jump nnn => exact Laws.RoundTrip.jump nnn
  | call nnn => exact Laws.RoundTrip.call nnn
  | skipEqImm x nn => exact Laws.RoundTrip.skipEqImm x nn
  | skipNeImm x nn => exact Laws.RoundTrip.skipNeImm x nn
  | skipEqReg x y => exact Laws.RoundTrip.skipEqReg x y
  | loadImm x nn => exact Laws.RoundTrip.loadImm x nn
  | addImm x nn => exact Laws.RoundTrip.addImm x nn
  | move x y => exact Laws.RoundTrip.move x y
  | or x y => exact Laws.RoundTrip.or x y
  | and x y => exact Laws.RoundTrip.and x y
  | xor x y => exact Laws.RoundTrip.xor x y
  | add x y => exact Laws.RoundTrip.add x y
  | sub x y => exact Laws.RoundTrip.sub x y
  | shr x => exact Laws.RoundTrip.shr x
  | subn x y => exact Laws.RoundTrip.subn x y
  | shl x => exact Laws.RoundTrip.shl x
  | skipNeReg x y => exact Laws.RoundTrip.skipNeReg x y
  | loadI nnn => exact Laws.RoundTrip.loadI nnn
  | jumpOffset nnn => exact Laws.RoundTrip.jumpOffset nnn
  | rand x nn => exact Laws.RoundTrip.rand x nn
  | draw x y n => exact Laws.RoundTrip.draw x y n
  | skipKey x => exact Laws.RoundTrip.skipKey x
  | skipNokey x => exact Laws.RoundTrip.skipNokey x
  | loadDt x => exact Laws.RoundTrip.loadDt x
  | waitKey x => exact Laws.RoundTrip.waitKey x
  | setDt x => exact Laws.RoundTrip.setDt x
  | setSt x => exact Laws.RoundTrip.setSt x
  | addI x => exact Laws.RoundTrip.addI x
  | fontAddr x => exact Laws.RoundTrip.fontAddr x
  | bcd x => exact Laws.RoundTrip.bcd x
  | storeRegs x => exact Laws.RoundTrip.storeRegs x
  | loadRegs x => exact Laws.RoundTrip.loadRegs x

end Sys2Proof
end

section
/-! The decoder: its fields as numbers, what it reads back, and the opcode map as data (30_encoding.md sections 2 to
6). -/
namespace Sys2Proof

/-! ## A legal word read back -/

/-- Clearing bits 7 to 4 clears the Y field (30_encoding.md section 6). -/
theorem mask_FF0F (w : Word) : w &&& 0xFF0F = encXYN (fieldOP w) (fieldX w) 0 (fieldN w) := by
  conv_lhs => rw [← encXYN_fields w]
  apply BitVec.eq_of_getLsbD_eq
  intro i hi
  have hmask : ∀ j < 16, (0xFF0F : Word).getLsbD j = !decide (4 ≤ j ∧ j < 8) := by decide
  rw [BitVec.getLsbD_and, hmask i hi]
  simp only [encXYN, BitVec.getLsbD_append]
  by_cases h4 : i < 4
  · simp [h4]
  · by_cases h8 : i - 4 < 4
    · have hY : 4 ≤ i ∧ i < 8 := by omega
      simp [h4, h8, hY, idxBits]
    · have hX : ¬ (4 ≤ i ∧ i < 8) := by omega
      simp only [hX, h4, h8, if_false]
      simp

/-- The bits of a word that the instruction it decodes to comes from: all but the Y field of the shifts (log 23). -/
def Instr.usedBits (w : Word) : Instr → Word
  | .shr _ | .shl _ => w &&& 0xFF0F
  | _ => w

section
variable {w : Word} {i : Instr} {op : BitVec 4}

theorem encA_of_op (hop : fieldOP w = op) : encA op (fieldNNN w) = w := hop ▸ encA_fields w

theorem encXK_of_op (hop : fieldOP w = op) {nn : Byte} (hnn : fieldNN w = nn) : encXK op (fieldX w) nn = w :=
  hop ▸ hnn ▸ encXK_fields w

theorem encXYN_of_op (hop : fieldOP w = op) {n : BitVec 4} (hn : fieldN w = n) :
    encXYN op (fieldX w) (fieldY w) n = w :=
  hop ▸ hn ▸ encXYN_fields w

theorem encShift_of_op (hop : fieldOP w = op) {n : BitVec 4} (hn : fieldN w = n) :
    encXYN op (fieldX w) 0 n = w &&& 0xFF0F :=
  hop ▸ hn ▸ (mask_FF0F w).symm

theorem decodeZ_reencodes (h : decodeZ w = .ok i) : i.wellFormed = true ∧ encode i = i.usedBits w := by
  unfold decodeZ at h
  split at h
  next hw =>
    cases h
    exact ⟨rfl, hw.symm⟩
  next =>
    split at h
    next hw =>
      cases h
      exact ⟨rfl, hw.symm⟩
    next => cases h

theorem decodeALU_reencodes (hop : fieldOP w = 0x8) (h : decodeALU w = .ok i) :
    i.wellFormed = true ∧ encode i = i.usedBits w := by
  simp only [decodeALU] at h
  split at h <;> cases h <;> rename_i hn
  case h_7 | h_9 => exact ⟨rfl, encShift_of_op hop hn⟩
  all_goals exact ⟨rfl, encXYN_of_op hop hn⟩

theorem decodeKey_reencodes (hop : fieldOP w = 0xE) (h : decodeKey w = .ok i) :
    i.wellFormed = true ∧ encode i = i.usedBits w := by
  simp only [decodeKey] at h
  split at h <;> cases h <;> rename_i hnn
  all_goals exact ⟨rfl, encXK_of_op hop hnn⟩

theorem decodeMisc_reencodes (hop : fieldOP w = 0xF) (h : decodeMisc w = .ok i) :
    i.wellFormed = true ∧ encode i = i.usedBits w := by
  simp only [decodeMisc] at h
  split at h <;> cases h <;> rename_i hnn
  all_goals exact ⟨rfl, encXK_of_op hop hnn⟩

theorem decodeN0_ok {j : Instr} (h : decodeN0 j w = .ok i) : fieldN w = 0 ∧ i = j := by
  unfold decodeN0 at h
  split at h <;> cases h
  next hn => exact ⟨hn, rfl⟩

/-- Everything the decoder reads, it reads from the bits the encoder writes. -/
theorem decode_reencodes (h : decode w = .ok i) : i.wellFormed = true ∧ encode i = i.usedBits w := by
  unfold decode at h
  split at h
  case h_1 => exact decodeZ_reencodes h
  case h_6 hop | h_10 hop =>
    obtain ⟨hn, rfl⟩ := decodeN0_ok h
    exact ⟨rfl, encXYN_of_op hop hn⟩
  case h_9 hop => exact decodeALU_reencodes hop h
  case h_15 hop => exact decodeKey_reencodes hop h
  case h_16 hop => exact decodeMisc_reencodes hop h
  all_goals cases h <;> rename_i hop
  case h_2 | h_3 | h_11 | h_12 => exact ⟨rfl, encA_of_op hop⟩
  case h_4 | h_5 | h_7 | h_8 | h_13 => exact ⟨rfl, encXK_of_op hop rfl⟩
  case h_14 =>
    have hN : BitVec.ofNat 4 (fieldN w).toNat = fieldN w := by simp
    exact ⟨decide_eq_true (fieldN w).isLt, (congrArg (encXYN _ _ _) hN).trans (encXYN_of_op hop rfl)⟩

end

/-- Settles O2: only `shr` and `shl` do not use every bit of their word. -/
theorem legalWordReencodes : Obligations.LegalWordReencodes := by
  intro w i h
  obtain ⟨hwf, henc⟩ := decode_reencodes h
  refine ⟨hwf, ?_, fun hno => ?_⟩
  · rintro ⟨x, rfl | rfl⟩ <;> exact henc
  · rw [henc]
    unfold Instr.usedBits
    split
    next x => exact absurd rfl (hno x).1
    next x => exact absurd rfl (hno x).2
    next => rfl

/-! ## The opcode map -/

/-- A row that selects a word agrees with it, field by field, under its mask. -/
theorem OpcodeRow.selects_fields {r : OpcodeRow} {w : Word} (h : r.selects w = true) :
    fieldOP w &&& fieldOP r.mask = fieldOP r.pattern ∧ fieldN w &&& fieldN r.mask = fieldN r.pattern ∧
      fieldNN w &&& fieldNN r.mask = fieldNN r.pattern := by
  have hw : w &&& r.mask = r.pattern := beq_iff_eq.1 h
  refine ⟨?_, ?_, ?_⟩ <;> rw [← hw]
  · exact BitVec.extractLsb'_and.symm
  · exact BitVec.extractLsb'_and.symm
  · exact BitVec.extractLsb'_and.symm

theorem and_fullNibble (b : BitVec 4) : b &&& 15#4 = b := BitVec.and_allOnes

theorem and_fullByte (b : Byte) : b &&& 255#8 = b := BitVec.and_allOnes

theorem and_fullWord (w : Word) : w &&& 65535#16 = w := BitVec.and_allOnes

theorem exists_decode_of_selects {w : Word} {row : OpcodeRow} (hrow : row ∈ opcodeRows)
    (hsel : row.selects w = true) : ∃ i, decode w = .ok i ∧ i.mnemonic = row.mnemonic := by
  obtain ⟨hop, hn, hnn⟩ := row.selects_fields hsel
  simp only [opcodeRows, opcodeRowsLow, opcodeRowsHigh, List.cons_append, List.nil_append, List.mem_cons,
    List.not_mem_nil, or_false] at hrow
  rcases hrow with rfl | rfl | rfl | rfl | rfl | rfl | rfl | rfl | rfl | rfl | rfl | rfl | rfl | rfl | rfl | rfl |
    rfl | rfl | rfl | rfl | rfl | rfl | rfl | rfl | rfl | rfl | rfl | rfl | rfl | rfl | rfl | rfl | rfl | rfl
  case inl | inr.inl =>
    simp [OpcodeRow.selects, and_fullWord] at hsel
    subst hsel
    exact ⟨_, rfl, rfl⟩
  all_goals
    simp [fieldOP, fieldN, fieldNN, and_fullNibble, and_fullByte] at hop hn hnn
    simp [decode, decodeALU, decodeN0, decodeKey, decodeMisc, fieldOP, fieldN, fieldNN, hop, hn, hnn,
      Instr.mnemonic]

/-- The map lists its rows in the order of the constructors. -/
def Instr.row (i : Instr) : OpcodeRow := opcodeRows.getD i.ctorIdx ⟨"", 0, 0⟩

theorem Instr.row_mem (i : Instr) : i.row ∈ opcodeRows := by
  have hlt : i.ctorIdx < opcodeRows.length := by cases i <;> exact Nat.le_of_ble_eq_true rfl
  rw [Instr.row, List.getD_eq_getElem _ _ hlt]
  exact List.getElem_mem hlt

theorem Instr.row_mnemonic (i : Instr) : i.row.mnemonic = i.mnemonic := by
  cases i <;> rfl

/-- An assembled word is selected by its instruction's row, by the fixed fields of its format. -/
theorem Instr.row_selects_encode (i : Instr) : i.row.selects (encode i) = true := by
  cases i with
  | clearScreen | ret => decide
  | jump | call | loadI | jumpOffset =>
    exact beq_iff_eq.2 ((mask_F000 _).trans (by rw [encode, fieldOP_encA]; rfl))
  | skipEqImm | skipNeImm | loadImm | addImm | rand =>
    exact beq_iff_eq.2 ((mask_F000 _).trans (by rw [encode, fieldOP_encXK]; rfl))
  | draw => exact beq_iff_eq.2 ((mask_F000 _).trans (by rw [encode, fieldOP_encXYN]; rfl))
  | skipEqReg | skipNeReg | move | or | and | xor | add | sub | shr | subn | shl =>
    exact beq_iff_eq.2 ((mask_F00F _).trans (by rw [encode, fieldOP_encXYN, fieldN_encXYN]; rfl))
  | skipKey | skipNokey | loadDt | waitKey | setDt | setSt | addI | fontAddr | bcd | storeRegs | loadRegs =>
    exact beq_iff_eq.2 ((mask_F0FF _).trans (by rw [encode, fieldOP_encXK, fieldNN_encXK]; rfl))

/-- No row looks at the bits its instruction ignores. -/
theorem Instr.row_selects_usedBits (i : Instr) (w : Word) : i.row.selects (i.usedBits w) = i.row.selects w := by
  cases i with
  | shr | shl =>
    show (w &&& 0xFF0F &&& 0xF00F == _) = (w &&& 0xF00F == _)
    rw [BitVec.and_assoc]
    rfl
  | _ => rfl

/-- Settles O3: the row of an instruction selects its encoding, and a row fixes the fields the decoder switches on. -/
theorem decoderFollowsOpcodeMap : Obligations.DecoderFollowsOpcodeMap := by
  refine fun w => ⟨fun i hi => ⟨i.row, i.row_mem, ?_, i.row_mnemonic⟩, fun row => exists_decode_of_selects⟩
  rw [← i.row_selects_usedBits, ← (decode_reencodes hi).2]
  exact i.row_selects_encode

/-- Two patterns that one word matches agree on the bits both masks have. -/
theorem OpcodeRow.patterns_agree {a b : OpcodeRow} {w : Word} (ha : a.selects w = true) (hb : b.selects w = true) :
    a.pattern &&& b.mask = b.pattern &&& a.mask := by
  rw [← beq_iff_eq.1 ha, ← beq_iff_eq.1 hb, BitVec.and_assoc, BitVec.and_assoc, BitVec.and_comm a.mask]

/-- Settles O4: no two rows' patterns agree on the bits both masks have. -/
theorem opcodeRowsNeverOverlap : Obligations.OpcodeRowsNeverOverlap := by
  have hdistinct : ∀ a ∈ opcodeRows, ∀ b ∈ opcodeRows, a.pattern &&& b.mask = b.pattern &&& a.mask → a = b := by
    decide
  exact fun w a b ha hb hsa hsb => hdistinct a ha b hb (OpcodeRow.patterns_agree hsa hsb)

end Sys2Proof
end

section
/-! The illegal words and the operands of the legal ones, as numbers (30_encoding.md sections 2 to 5). -/
namespace Sys2Proof

/-! ## Fields as numbers (30_encoding.md R72) -/

theorem fieldOP_toNat (w : Word) : (fieldOP w).toNat = w.toNat / 4096 := by
  have := w.isLt
  rw [fieldOP, BitVec.extractLsb'_toNat, Nat.shiftRight_eq_div_pow]
  omega

theorem fieldN_toNat (w : Word) : (fieldN w).toNat = w.toNat % 16 := by
  rw [fieldN, BitVec.extractLsb'_toNat, Nat.shiftRight_zero]

theorem fieldNN_toNat (w : Word) : (fieldNN w).toNat = w.toNat % 256 := by
  rw [fieldNN, BitVec.extractLsb'_toNat, Nat.shiftRight_zero]

/-! ## Illegal words (30_encoding.md section 5) -/

/-- Decoding fails in one way only. -/
theorem decode_ok_or_illegal (w : Word) : (∃ i, decode w = .ok i) ∨ decode w = .error (.illegalOpcode w) := by
  unfold decode
  split
  case h_1 =>
    unfold decodeZ
    split_ifs <;> simp
  case h_6 | h_10 =>
    unfold decodeN0
    split_ifs <;> simp
  case h_9 =>
    unfold decodeALU
    split <;> simp
  case h_15 =>
    unfold decodeKey
    split <;> simp
  case h_16 =>
    unfold decodeMisc
    split <;> simp
  case h_17 => exact .inr rfl
  all_goals exact .inl ⟨_, rfl⟩

theorem decode_ne_ok_iff (w : Word) : (∀ i, decode w ≠ .ok i) ↔ decode w = .error (.illegalOpcode w) := by
  constructor
  · intro h
    exact (decode_ok_or_illegal w).resolve_left fun ⟨i, hi⟩ => h i hi
  · intro h i hi
    cases h.symm.trans hi

theorem decodeZ_illegal_iff (w : Word) : decodeZ w = .error (.illegalOpcode w) ↔ w ≠ 0x00E0 ∧ w ≠ 0x00EE := by
  unfold decodeZ
  split_ifs <;> simp_all

theorem decodeN0_illegal_iff (i : Instr) (w : Word) :
    decodeN0 i w = .error (.illegalOpcode w) ↔ fieldN w ≠ 0 := by
  unfold decodeN0
  split_ifs with h <;> simpa using h

theorem decodeALU_illegal_iff (w : Word) :
    decodeALU w = .error (.illegalOpcode w) ↔ fieldN w ∉ [0x0, 0x1, 0x2, 0x3, 0x4, 0x5, 0x6, 0x7, 0xE] := by
  unfold decodeALU
  split <;> simp_all

theorem decodeKey_illegal_iff (w : Word) :
    decodeKey w = .error (.illegalOpcode w) ↔ fieldNN w ∉ [0x9E, 0xA1] := by
  unfold decodeKey
  split <;> simp_all

theorem decodeMisc_illegal_iff (w : Word) : decodeMisc w = .error (.illegalOpcode w) ↔
    fieldNN w ∉ [0x07, 0x0A, 0x15, 0x18, 0x1E, 0x29, 0x33, 0x55, 0x65] := by
  unfold decodeMisc
  split <;> simp_all

/-- The table of 30_encoding.md section 5, on the fields. -/
theorem decode_illegal_iff (w : Word) : decode w = .error (.illegalOpcode w) ↔
    (fieldOP w = 0 ∧ w ≠ 0x00E0 ∧ w ≠ 0x00EE) ∨ (fieldOP w = 5 ∧ fieldN w ≠ 0) ∨
    (fieldOP w = 8 ∧ fieldN w ∉ [0x0, 0x1, 0x2, 0x3, 0x4, 0x5, 0x6, 0x7, 0xE]) ∨
    (fieldOP w = 9 ∧ fieldN w ≠ 0) ∨ (fieldOP w = 0xE ∧ fieldNN w ∉ [0x9E, 0xA1]) ∨
    (fieldOP w = 0xF ∧ fieldNN w ∉ [0x07, 0x0A, 0x15, 0x18, 0x1E, 0x29, 0x33, 0x55, 0x65]) := by
  unfold decode
  split
  case h_1 hop => simp [hop, decodeZ_illegal_iff]
  case h_6 hop | h_10 hop => simp [hop, decodeN0_illegal_iff]
  case h_9 hop => simp [hop, decodeALU_illegal_iff]
  case h_15 hop => simp [hop, decodeKey_illegal_iff]
  case h_16 hop => simp [hop, decodeMisc_illegal_iff]
  case h_17 =>
    have hall : ∀ op : BitVec 4,
        op ∈ [0x0, 0x1, 0x2, 0x3, 0x4, 0x5, 0x6, 0x7, 0x8, 0x9, 0xA, 0xB, 0xC, 0xD, 0xE, 0xF] := by decide
    have hop := hall (fieldOP w)
    simp_all
  all_goals
    rename_i hop
    simp [hop]

/-- Settles O5: the table on the fields, each field read off the number. -/
theorem illegalWordsAreTheTable : Obligations.IllegalWordsAreTheTable := by
  intro w
  refine ⟨?_, (decode_ne_ok_iff w).1⟩
  have hALU : ∀ n : BitVec 4, n ∉ [0x0, 0x1, 0x2, 0x3, 0x4, 0x5, 0x6, 0x7, 0xE] ↔
      n.toNat ∈ [8, 9, 0xA, 0xB, 0xC, 0xD, 0xF] := by decide
  rw [decode_ne_ok_iff, decode_illegal_iff, hALU, ← fieldOP_toNat, ← fieldN_toNat, ← fieldNN_toNat]
  simp [BitVec.toNat_eq]

/-! ## Operands -/

section
variable (op n : BitVec 4) (x y : RegIdx) (nn : Byte) (nnn : Addr12)

theorem word_of_address : BitVec.ofNat 16 (op.toNat * 4096 + nnn.toNat) = encA op nnn := by
  rw [← encA_toNat, BitVec.ofNat_toNat, BitVec.setWidth_eq]

theorem word_of_immediate : BitVec.ofNat 16 (op.toNat * 4096 + x.val * 256 + nn.toNat) = encXK op x nn := by
  rw [← encXK_toNat, BitVec.ofNat_toNat, BitVec.setWidth_eq]

theorem word_of_minor : BitVec.ofNat 16 (op.toNat * 4096 + nn.toNat + x.val * 256) = encXK op x nn := by
  rw [Nat.add_right_comm, word_of_immediate]

theorem word_of_registers :
    BitVec.ofNat 16 (op.toNat * 4096 + x.val * 256 + y.val * 16 + n.toNat) = encXYN op x y n := by
  rw [← encXYN_toNat, BitVec.ofNat_toNat, BitVec.setWidth_eq]

end

/-- The Y field of `shr` is ignored (30_encoding.md R78). -/
theorem decode_shr (x y : RegIdx) : decode (encXYN 0x8 x y 0x6) = .ok (.shr x) := by
  simp [decode, decodeALU]

/-- The Y field of `shl` is ignored (30_encoding.md R78). -/
theorem decode_shl (x y : RegIdx) : decode (encXYN 0x8 x y 0xE) = .ok (.shl x) := by
  simp [decode, decodeALU]

/-- Settles O6: each number is the word of a format, which the decoder reads back. -/
theorem everyRowDecodesItsOperands : Obligations.EveryRowDecodesItsOperands := by
  intro x y n nn nnn hn word xy xk xm ad
  have had (op : BitVec 4) : ad (op.toNat * 4096) = encA op nnn := word_of_address op nnn
  have hxk (op : BitVec 4) : xk (op.toNat * 4096) = encXK op x nn := word_of_immediate op x nn
  have hxm (op : BitVec 4) (nn : Byte) : xm (op.toNat * 4096 + nn.toNat) = encXK op x nn := word_of_minor op x nn
  have hxy (op n : BitVec 4) : xy (op.toNat * 4096) n.toNat = encXYN op x y n := word_of_registers op n x y
  have hdraw : xy 0xD000 n = encXYN 0xD x y (BitVec.ofNat 4 n) := by
    rw [← hxy, BitVec.toNat_ofNat, Nat.mod_eq_of_lt hn]
    rfl
  open Laws in
  exact ⟨⟨RoundTrip.clearScreen rfl, RoundTrip.ret rfl⟩,
    ⟨had 0x1 ▸ RoundTrip.jump nnn rfl, had 0x2 ▸ RoundTrip.call nnn rfl, had 0xA ▸ RoundTrip.loadI nnn rfl,
      had 0xB ▸ RoundTrip.jumpOffset nnn rfl⟩,
    ⟨hxk 0x3 ▸ RoundTrip.skipEqImm x nn rfl, hxk 0x4 ▸ RoundTrip.skipNeImm x nn rfl,
      hxk 0x6 ▸ RoundTrip.loadImm x nn rfl, hxk 0x7 ▸ RoundTrip.addImm x nn rfl, hxk 0xC ▸ RoundTrip.rand x nn rfl⟩,
    ⟨hxy 0x5 0x0 ▸ RoundTrip.skipEqReg x y rfl, hxy 0x9 0x0 ▸ RoundTrip.skipNeReg x y rfl,
      hxy 0x8 0x0 ▸ RoundTrip.move x y rfl, hxy 0x8 0x1 ▸ RoundTrip.or x y rfl, hxy 0x8 0x2 ▸ RoundTrip.and x y rfl,
      hxy 0x8 0x3 ▸ RoundTrip.xor x y rfl, hxy 0x8 0x4 ▸ RoundTrip.add x y rfl, hxy 0x8 0x5 ▸ RoundTrip.sub x y rfl,
      hxy 0x8 0x6 ▸ decode_shr x y, hxy 0x8 0x7 ▸ RoundTrip.subn x y rfl, hxy 0x8 0xE ▸ decode_shl x y⟩,
    hdraw ▸ RoundTrip.draw x y n (decide_eq_true hn),
    ⟨hxm 0xE 0x9E ▸ RoundTrip.skipKey x rfl, hxm 0xE 0xA1 ▸ RoundTrip.skipNokey x rfl,
      hxm 0xF 0x07 ▸ RoundTrip.loadDt x rfl, hxm 0xF 0x0A ▸ RoundTrip.waitKey x rfl,
      hxm 0xF 0x15 ▸ RoundTrip.setDt x rfl, hxm 0xF 0x18 ▸ RoundTrip.setSt x rfl,
      hxm 0xF 0x1E ▸ RoundTrip.addI x rfl, hxm 0xF 0x29 ▸ RoundTrip.fontAddr x rfl,
      hxm 0xF 0x33 ▸ RoundTrip.bcd x rfl, hxm 0xF 0x55 ▸ RoundTrip.storeRegs x rfl,
      hxm 0xF 0x65 ▸ RoundTrip.loadRegs x rfl⟩⟩

/-- Settles O7. -/
theorem writtenOutWordsDecode : Obligations.WrittenOutWordsDecode := by
  unfold Obligations.WrittenOutWordsDecode
  decide

end Sys2Proof
end

section
/-! The instructions that can raise, read off from their test, and the inversion of `exec`: an instruction has raised a
condition at its own `pc`, or it has completed. -/
namespace Sys2Proof

open Machine

/-- What it is for an instruction to complete from `s` in `t`. The eight instructions that can raise complete under
their test, with the state written out; every other one is its definition. -/
def Instr.Completed (s t : State) : Instr → Prop
  | .ret => s.sp.val ≠ 0 ∧ ∃ h : s.sp.val - 1 < 16,
      t = { s with sp := ⟨s.sp.val - 1, Nat.lt_succ_of_lt h⟩, pc := s.stack[s.sp.val - 1] }
  | .call nnn => ∃ h : s.sp.val < 16, t = { s with
      stack := s.stack.set s.sp.val (s.pc + 2) h, sp := ⟨s.sp.val + 1, Nat.succ_lt_succ h⟩, pc := zext16 nnn }
  | .skipKey x => ∃ k : RegIdx, k.val = (s.reg x).toNat ∧ t = s.skipIf (s.keyAt k)
  | .skipNokey x => ∃ k : RegIdx, k.val = (s.reg x).toNat ∧ t = s.skipIf (!s.keyAt k)
  | .bcd x => s.i.toNat ≤ 0xFFD ∧ t = (s.setMem (s.mem.putAll s.i.toNat (bcdDigits (s.reg x)))).advance
  | .storeRegs x => s.i.toNat + x.val ≤ 0xFFF ∧ t = (s.setMem (s.mem.putAll s.i.toNat (s.regsUpTo x))).advance
  | .loadRegs x => s.i.toNat + x.val ≤ 0xFFF ∧
      t = (s.setRegsFrom 0 (s.mem.getAll s.i.toNat (x.val + 1))).advance
  | .draw x y n => (n = 0 ∨ s.i.toNat + (n - 1) ≤ 0xFFF) ∧
      t = ((drawRows x y 0 (s.mem.getAll s.i.toNat n) (s.setFlag false)).setChanged true).advance
  | i => exec i s = .next t

namespace Machine

/-- Everything an instruction can do: raise one condition, which records its `pc`, and nothing else, or complete. -/
theorem exec_raised_or_completed {i : Instr} {s t : State} (h : exec i s = .next t) :
    (∃ f, f.pc = s.pc ∧ t = s.raise f) ∨ i.Completed s t := by
  cases i with
  | ret =>
    rcases execRet_cases s with ⟨-, he⟩ | ⟨h0, hlt, he⟩ <;> cases he.symm.trans h
    · exact .inl ⟨_, rfl, rfl⟩
    · exact .inr ⟨h0, hlt, rfl⟩
  | call nnn =>
    rcases execCall_cases s nnn with ⟨-, he⟩ | ⟨hlt, he⟩ <;> cases he.symm.trans h
    · exact .inl ⟨_, rfl, rfl⟩
    · exact .inr ⟨hlt, rfl⟩
  | skipKey x =>
    rcases execSkipKey_cases s x with ⟨-, he⟩ | ⟨k, hk, he⟩ <;> cases he.symm.trans h
    · exact .inl ⟨_, rfl, rfl⟩
    · exact .inr ⟨k, hk, rfl⟩
  | skipNokey x =>
    rcases execSkipNokey_cases s x with ⟨-, he⟩ | ⟨k, hk, he⟩ <;> cases he.symm.trans h
    · exact .inl ⟨_, rfl, rfl⟩
    · exact .inr ⟨k, hk, rfl⟩
  | bcd x =>
    rcases execBcd_cases s x with ⟨-, he⟩ | ⟨hle, he⟩ <;> cases he.symm.trans h
    · exact .inl ⟨_, rfl, rfl⟩
    · exact .inr ⟨hle, rfl⟩
  | storeRegs x =>
    rcases execStoreRegs_cases s x with ⟨-, he⟩ | ⟨hle, he⟩ <;> cases he.symm.trans h
    · exact .inl ⟨_, rfl, rfl⟩
    · exact .inr ⟨hle, rfl⟩
  | loadRegs x =>
    rcases execLoadRegs_cases s x with ⟨-, he⟩ | ⟨hle, he⟩ <;> cases he.symm.trans h
    · exact .inl ⟨_, rfl, rfl⟩
    · exact .inr ⟨hle, rfl⟩
  | draw x y n =>
    rcases execDraw_cases s x y n with ⟨-, -, he⟩ | ⟨hle, he⟩ <;> cases he.symm.trans h
    · exact .inl ⟨_, rfl, rfl⟩
    · exact .inr ⟨hle, rfl⟩
  | _ => exact .inr h

/-- The same with the latch: a completed instruction leaves it as it was. -/
theorem exec_next_cases {i : Instr} {s t : State} (h : exec i s = .next t) :
    (∃ f, f.pc = s.pc ∧ t = s.raise f) ∨ i.Completed s t ∧ t.fault = s.fault := by
  rcases exec_cases i s with ⟨f, hpc, he⟩ | ⟨u, he, hfault⟩ <;> cases he.symm.trans h
  · exact .inl ⟨f, hpc, rfl⟩
  · exact (exec_raised_or_completed h).imp_right (⟨·, hfault⟩)

/-! ## One equation per test -/

theorem exec_ret_of_empty {s : State} (h : s.sp.val = 0) :
    exec .ret s = .next (s.raise (.stackUnderflow s.pc)) := by
  rcases execRet_cases s with ⟨-, he⟩ | ⟨h0, -, -⟩
  · exact he
  · exact absurd h h0

theorem exec_ret_of_pushed {s : State} {k : Fin 16} (h : s.sp.val = k.val + 1) :
    exec .ret s = .next { s with sp := ⟨k.val, Nat.lt_succ_of_lt k.isLt⟩, pc := s.stack[k] } := by
  rcases execRet_cases s with ⟨h0, -⟩ | ⟨_, _, he⟩
  · omega
  · simp only [he, h, Nat.add_sub_cancel, Fin.getElem_fin]

theorem exec_call_of_full {s : State} (nnn : Addr12) (h : s.sp.val = 16) :
    exec (.call nnn) s = .next (s.raise (.stackOverflow s.pc)) := by
  rcases execCall_cases s nnn with ⟨-, he⟩ | ⟨hlt, -⟩
  · exact he
  · omega

theorem exec_call_of_room {s : State} (nnn : Addr12) (h : s.sp.val < 16) :
    exec (.call nnn) s = .next { s with
      stack := s.stack.set s.sp.val (s.pc + 2) h, sp := ⟨s.sp.val + 1, Nat.succ_lt_succ h⟩, pc := zext16 nnn } := by
  rcases execCall_cases s nnn with ⟨h16, -⟩ | ⟨_, he⟩
  · omega
  · exact he

theorem exec_skipKey_of_gt {s : State} {x : RegIdx} (h : 15 < (s.reg x).toNat) :
    exec (.skipKey x) s = .next (s.raise (.keypadIndexOutOfRange s.pc (s.reg x))) := by
  simp only [exec, execSkipKey, (keyIndex_none _).2 h, raised_eq]

theorem exec_skipKey_of_key {s : State} {x k : RegIdx} (h : k.val = (s.reg x).toNat) :
    exec (.skipKey x) s = .next (s.skipIf (s.keyAt k)) := by
  simp only [exec, execSkipKey, (keyIndex_some _ _).2 h]

theorem exec_skipNokey_of_gt {s : State} {x : RegIdx} (h : 15 < (s.reg x).toNat) :
    exec (.skipNokey x) s = .next (s.raise (.keypadIndexOutOfRange s.pc (s.reg x))) := by
  simp only [exec, execSkipNokey, (keyIndex_none _).2 h, raised_eq]

theorem exec_skipNokey_of_key {s : State} {x k : RegIdx} (h : k.val = (s.reg x).toNat) :
    exec (.skipNokey x) s = .next (s.skipIf (!s.keyAt k)) := by
  simp only [exec, execSkipNokey, (keyIndex_some _ _).2 h]

theorem exec_bcd_of_outside {s : State} (x : RegIdx) (h : 0xFFD < s.i.toNat) :
    exec (.bcd x) s = .next (s.raise (s.rangeFault s.i.toNat)) := by
  rcases execBcd_cases s x with ⟨-, he⟩ | ⟨hle, -⟩
  · exact he
  · omega

theorem exec_bcd_of_inside {s : State} (x : RegIdx) (h : s.i.toNat ≤ 0xFFD) :
    exec (.bcd x) s = .next (s.setMem (s.mem.putAll s.i.toNat (bcdDigits (s.reg x)))).advance := by
  rcases execBcd_cases s x with ⟨hlt, -⟩ | ⟨-, he⟩
  · omega
  · exact he

theorem exec_storeRegs_of_outside {s : State} {x : RegIdx} (h : 0xFFF < s.i.toNat + x.val) :
    exec (.storeRegs x) s = .next (s.raise (s.rangeFault s.i.toNat)) := by
  rcases execStoreRegs_cases s x with ⟨-, he⟩ | ⟨hle, -⟩
  · exact he
  · omega

theorem exec_storeRegs_of_inside {s : State} {x : RegIdx} (h : s.i.toNat + x.val ≤ 0xFFF) :
    exec (.storeRegs x) s = .next (s.setMem (s.mem.putAll s.i.toNat (s.regsUpTo x))).advance := by
  rcases execStoreRegs_cases s x with ⟨hlt, -⟩ | ⟨-, he⟩
  · omega
  · exact he

theorem exec_loadRegs_of_outside {s : State} {x : RegIdx} (h : 0xFFF < s.i.toNat + x.val) :
    exec (.loadRegs x) s = .next (s.raise (s.rangeFault s.i.toNat)) := by
  rcases execLoadRegs_cases s x with ⟨-, he⟩ | ⟨hle, -⟩
  · exact he
  · omega

theorem exec_loadRegs_of_inside {s : State} {x : RegIdx} (h : s.i.toNat + x.val ≤ 0xFFF) :
    exec (.loadRegs x) s = .next (s.setRegsFrom 0 (s.mem.getAll s.i.toNat (x.val + 1))).advance := by
  rcases execLoadRegs_cases s x with ⟨hlt, -⟩ | ⟨-, he⟩
  · omega
  · exact he

theorem exec_draw_of_outside {s : State} (x y : RegIdx) {n : Nat} (h0 : 0 < n) (h : 0xFFF < s.i.toNat + (n - 1)) :
    exec (.draw x y n) s = .next (s.raise (s.rangeFault s.i.toNat)) := by
  rcases execDraw_cases s x y n with ⟨-, -, he⟩ | ⟨hle, -⟩
  · exact he
  · omega

theorem exec_draw_of_inside {s : State} (x y : RegIdx) {n : Nat} (h : n = 0 ∨ s.i.toNat + (n - 1) ≤ 0xFFF) :
    exec (.draw x y n) s =
      .next ((drawRows x y 0 (s.mem.getAll s.i.toNat n) (s.setFlag false)).setChanged true).advance := by
  rcases execDraw_cases s x y n with ⟨h0, hlt, -⟩ | ⟨-, he⟩
  · omega
  · exact he

end Machine

end Sys2Proof
end

section
/-! The sound timer drives nothing (60_exceptions.md section 8; log 21): every part of the step commutes with a write of
`ST`, up to the value of `ST` it leaves. -/
namespace Sys2Proof.Machine

theorem State.setRegsFrom_setSt (bs : List Byte) (s : State) (k : Nat) (v : Byte) :
    (s.setSt v).setRegsFrom k bs = (s.setRegsFrom k bs).setSt v := by
  induction bs generalizing s k with
  | nil => rfl
  | cons b bs ih =>
    unfold State.setRegsFrom
    split
    · exact ih (s.setReg _ b) (k + 1)
    · rfl

theorem drawRow_setSt (x y : RegIdx) (row : Nat) (b : Byte) (s : State) (v : Byte) :
    drawRow x y row b (s.setSt v) = (drawRow x y row b s).setSt v :=
  List.foldl_hom (State.setSt · v) fun _ _ => rfl

theorem drawRows_setSt (x y : RegIdx) (bs : List Byte) (row : Nat) (s : State) (v : Byte) :
    drawRows x y row bs (s.setSt v) = (drawRows x y row bs s).setSt v := by
  induction bs generalizing row s with
  | nil => rfl
  | cons b bs ih => rw [drawRows, drawRow_setSt, ih, drawRows]

theorem State.awaitKey_setSt (s : State) (v : Byte) : (s.setSt v).awaitKey = s.awaitKey.setSt v := by
  have hkey : (s.setSt v).firstPressed = s.firstPressed := rfl
  unfold State.awaitKey
  rw [hkey]
  cases s.firstPressed <;> rfl

/-- The same instruction from two states that differ in `ST`: the tests read other parts of the state, so both raise the
same condition or both complete alike. -/
theorem exec_setSt {i : Instr} {s t : State} (v : Byte) (h : exec i s = .next t) :
    ∃ v', exec i (s.setSt v) = .next (t.setSt v') := by
  cases i with
  | ret =>
    rcases execRet_cases s with ⟨h0, he⟩ | ⟨h0, hlt, he⟩ <;> cases he.symm.trans h
    · exact ⟨v, exec_ret_of_empty (s := s.setSt v) h0⟩
    · exact ⟨v, exec_ret_of_pushed (s := s.setSt v) (k := ⟨s.sp.val - 1, hlt⟩)
        (Nat.succ_pred_eq_of_ne_zero h0).symm⟩
  | call nnn =>
    rcases execCall_cases s nnn with ⟨hfull, he⟩ | ⟨hlt, he⟩ <;> cases he.symm.trans h
    · exact ⟨v, exec_call_of_full (s := s.setSt v) nnn hfull⟩
    · exact ⟨v, exec_call_of_room (s := s.setSt v) nnn hlt⟩
  | skipKey x =>
    rcases execSkipKey_cases s x with ⟨hgt, he⟩ | ⟨k, hk, he⟩ <;> cases he.symm.trans h
    · exact ⟨v, exec_skipKey_of_gt (s := s.setSt v) hgt⟩
    · exact ⟨v, exec_skipKey_of_key (s := s.setSt v) hk⟩
  | skipNokey x =>
    rcases execSkipNokey_cases s x with ⟨hgt, he⟩ | ⟨k, hk, he⟩ <;> cases he.symm.trans h
    · exact ⟨v, exec_skipNokey_of_gt (s := s.setSt v) hgt⟩
    · exact ⟨v, exec_skipNokey_of_key (s := s.setSt v) hk⟩
  | bcd x =>
    rcases execBcd_cases s x with ⟨hout, he⟩ | ⟨hin, he⟩ <;> cases he.symm.trans h
    · exact ⟨v, exec_bcd_of_outside (s := s.setSt v) x hout⟩
    · exact ⟨v, exec_bcd_of_inside (s := s.setSt v) x hin⟩
  | storeRegs x =>
    rcases execStoreRegs_cases s x with ⟨hout, he⟩ | ⟨hin, he⟩ <;> cases he.symm.trans h
    · exact ⟨v, exec_storeRegs_of_outside (s := s.setSt v) hout⟩
    · exact ⟨v, exec_storeRegs_of_inside (s := s.setSt v) hin⟩
  | loadRegs x =>
    rcases execLoadRegs_cases s x with ⟨hout, he⟩ | ⟨hin, he⟩ <;> cases he.symm.trans h
    · exact ⟨v, exec_loadRegs_of_outside (s := s.setSt v) hout⟩
    · refine ⟨v, (exec_loadRegs_of_inside (s := s.setSt v) hin).trans ?_⟩
      rw [State.setRegsFrom_setSt]
      rfl
  | draw x y n =>
    rcases execDraw_cases s x y n with ⟨h0, hout, he⟩ | ⟨hin, he⟩ <;> cases he.symm.trans h
    · exact ⟨v, exec_draw_of_outside (s := s.setSt v) x y (Nat.pos_of_ne_zero h0) hout⟩
    · refine ⟨v, (exec_draw_of_inside (s := s.setSt v) x y hin).trans ?_⟩
      have hflag : (s.setSt v).setFlag false = (s.setFlag false).setSt v := rfl
      rw [hflag, drawRows_setSt]
      rfl
  | setSt x =>
    cases h
    exact ⟨s.reg x, rfl⟩
  | _ =>
    cases h
    exact ⟨v, rfl⟩

theorem fetchAndRun_of_outside {s : State} (h : 0xFFE < s.pc.toNat) :
    fetchAndRun exec s = .next (s.raise (s.rangeFault s.pc.toNat)) := by
  simp only [fetchAndRun, s.fetchWord_none.2 h, raised_eq]

theorem fetchAndRun_of_illegal {s : State} {w : Word} {e : DecodeReject} (hw : s.fetchWord = some w)
    (hd : decode w = .error e) : fetchAndRun exec s = .next (s.raise (.illegalOpcode s.pc w)) := by
  simp only [fetchAndRun, hw, hd, raised_eq]

theorem fetchAndRun_of_legal {s : State} {w : Word} {i : Instr} (hw : s.fetchWord = some w)
    (hd : decode w = .ok i) : fetchAndRun exec s = exec i s := by
  simp only [fetchAndRun, hw, hd]

theorem fetchAndRun_setSt {s t : State} (v : Byte) (h : fetchAndRun exec s = .next t) :
    ∃ v', fetchAndRun exec (s.setSt v) = .next (t.setSt v') := by
  rcases fetchAndRun_cases exec s with ⟨hpc, he⟩ | ⟨w, e, hw, hd, he⟩ | ⟨w, i, hw, hd, -, he⟩
  · cases he.symm.trans h
    exact ⟨v, fetchAndRun_of_outside (s := s.setSt v) hpc⟩
  · cases he.symm.trans h
    exact ⟨v, fetchAndRun_of_illegal (s := s.setSt v) hw hd⟩
  · obtain ⟨v', hv'⟩ := exec_setSt v (he.symm.trans h)
    exact ⟨v', (fetchAndRun_of_legal (s := s.setSt v) hw hd).trans hv'⟩

/-- Settles O57: a step in AWAITING_KEY keeps `ST`, and a RUNNING one runs the same instruction after both timers have
ticked. -/
theorem soundTimerDrivesNothing : Obligations.SoundTimerDrivesNothing := by
  intro s t v hs
  show ∃ v', step (s.setSt v) = .next (t.setSt v')
  rcases step_cases s with ⟨f, -, he⟩ | ⟨hf, hw, he⟩ | ⟨hr, he⟩
  · cases he.symm.trans hs
  · cases he.symm.trans hs
    refine ⟨v, (step_of_waiting (s := s.setSt v) hf hw).trans (congrArg Host.Outcome.next ?_)⟩
    exact (s.setChanged false).awaitKey_setSt v
  · obtain ⟨v', hv'⟩ := fetchAndRun_setSt (tick v) (he.symm.trans hs)
    exact ⟨v', (step_of_running (s := s.setSt v) hr).trans hv'⟩

end Sys2Proof.Machine
end

section
/-! What an instruction leaves unchanged, whether it raises or completes (00_scope.md section 5; log 8), and the `pc` it
leaves (40_cycle_dispatch.md section 2). -/
namespace Sys2Proof

open Machine

/-- Every kind of state but the registers, `pc` and the latch is as it was, unless the instruction is named for it; no
instruction is named for the keys. -/
structure Instr.Frame (i : Instr) (s t : State) : Prop where
  stack : (∀ nnn, i ≠ .call nnn) → t.stack = s.stack
  sp : (∀ nnn, i ≠ .call nnn) → i ≠ .ret → t.sp = s.sp
  mem : i.storesMemory = false → t.mem = s.mem
  display : i.touchesDisplay = false → t.display = s.display ∧ t.changed = s.changed
  index : (∀ nnn, i ≠ .loadI nnn) → (∀ x, i ≠ .addI x) → (∀ x, i ≠ .fontAddr x) → t.i = s.i
  delay : (∀ x, i ≠ .setDt x) → t.dt = s.dt
  sound : (∀ x, i ≠ .setSt x) → t.st = s.st
  wait : (∀ x, i ≠ .waitKey x) → t.waiting = s.waiting ∧ t.waitReg = s.waitReg
  random : (∀ x nn, i ≠ .rand x nn) → t.rndSeq = s.rndSeq ∧ t.rndDraws = s.rndDraws
  key : t.key = s.key

theorem Instr.frame_raise (i : Instr) (s : State) (f : Fault) : i.Frame s (s.raise f) := by
  constructor <;> simp

theorem Instr.Completed.frame {i : Instr} {s t : State} (h : i.Completed s t) : i.Frame s t := by
  cases i with
  | ret =>
    obtain ⟨-, _, rfl⟩ := h
    constructor <;> simp
  | call nnn =>
    obtain ⟨_, rfl⟩ := h
    constructor <;> simp
  | skipKey x =>
    obtain ⟨_, -, rfl⟩ := h
    constructor <;> simp
  | skipNokey x =>
    obtain ⟨_, -, rfl⟩ := h
    constructor <;> simp
  | bcd x =>
    obtain ⟨-, rfl⟩ := h
    constructor <;> simp [Instr.storesMemory]
  | storeRegs x =>
    obtain ⟨-, rfl⟩ := h
    constructor <;> simp [Instr.storesMemory]
  | loadRegs x =>
    obtain ⟨-, rfl⟩ := h
    rw [State.setRegsFrom_frame]
    constructor <;> simp
  | draw x y n =>
    obtain ⟨-, rfl⟩ := h
    rw [drawRows_frame]
    constructor <;> simp [Instr.touchesDisplay]
  | _ =>
    cases h
    constructor <;> simp [Instr.touchesDisplay]

/-- A completed instruction leaves every register but its destinations and, if it writes the flag, `VF`. -/
theorem Instr.Completed.reg {i : Instr} {s t : State} {r : RegIdx} (h : i.Completed s t) (hd : i.hasDest r = false)
    (hf : r = 15 → i.writesFlag = false) : t.reg r = s.reg r := by
  have hflag : i.writesFlag = true → r ≠ 15 := fun hw e => by simp [hf e] at hw
  cases i with
  | ret =>
    obtain ⟨-, _, rfl⟩ := h
    rfl
  | call nnn =>
    obtain ⟨_, rfl⟩ := h
    rfl
  | skipKey x =>
    obtain ⟨_, -, rfl⟩ := h
    rfl
  | skipNokey x =>
    obtain ⟨_, -, rfl⟩ := h
    rfl
  | bcd x =>
    obtain ⟨-, rfl⟩ := h
    rfl
  | storeRegs x =>
    obtain ⟨-, rfl⟩ := h
    rfl
  | loadRegs x =>
    obtain ⟨-, rfl⟩ := h
    rw [State.advance_reg, loadRegs_reg, if_neg (of_decide_eq_false hd)]
  | draw x y n =>
    obtain ⟨-, rfl⟩ := h
    have hr : r ≠ 15 := hflag rfl
    rw [State.advance_reg, State.setChanged_reg, drawRows_reg _ _ _ _ _ _ hr, State.setFlag_reg, if_neg hr]
  | _ =>
    cases h
    simp_all [Instr.hasDest, Instr.writesFlag]

theorem Instr.exists_key_iff {s : State} {v : Byte} {k : RegIdx} (hk : k.val = v.toNat) :
    (∃ j : RegIdx, j.val = v.toNat ∧ s.keyAt j = true) ↔ s.keyAt k = true := by
  constructor
  · rintro ⟨j, hj, hkey⟩
    rwa [Fin.ext (hk.trans hj.symm)]
  · exact fun hkey => ⟨k, hk, hkey⟩

/-- A completed instruction sets `pc` by the table of 40_cycle_dispatch.md R97. -/
theorem Instr.Completed.pc {i : Instr} {s t : State} (h : i.Completed s t) : t.pc = i.nextPc s := by
  cases i with
  | ret =>
    obtain ⟨-, hlt, rfl⟩ := h
    simp only [Instr.nextPc, dif_pos hlt]
  | call nnn =>
    obtain ⟨_, rfl⟩ := h
    rfl
  | skipKey x =>
    obtain ⟨k, hk, rfl⟩ := h
    simp only [Instr.nextPc, State.skipIf_pc, Instr.exists_key_iff hk]
  | skipNokey x =>
    obtain ⟨k, hk, rfl⟩ := h
    cases hkey : s.keyAt k <;> simp [Instr.nextPc, Instr.exists_key_iff hk, hkey]
  | bcd x =>
    obtain ⟨-, rfl⟩ := h
    rfl
  | storeRegs x =>
    obtain ⟨-, rfl⟩ := h
    rfl
  | loadRegs x =>
    obtain ⟨-, rfl⟩ := h
    rw [State.setRegsFrom_frame]
    rfl
  | draw x y n =>
    obtain ⟨-, rfl⟩ := h
    rw [drawRows_frame]
    rfl
  | _ =>
    cases h
    simp [Instr.nextPc]

namespace Machine

theorem exec_frame {i : Instr} {s t : State} (h : exec i s = .next t) : i.Frame s t := by
  rcases exec_next_cases h with ⟨f, -, rfl⟩ | ⟨hc, -⟩
  · exact i.frame_raise s f
  · exact hc.frame

/-- Settles O55: the fields of the frame. -/
theorem noInstructionWritesMoreThanItsEffect : Obligations.NoInstructionWritesMoreThanItsEffect := by
  intro i s t h
  obtain ⟨hstack, hsp, hmem, hdisplay, hindex, hdelay, hsound, hwait, hrandom, -⟩ := exec_frame h
  exact ⟨hstack, hsp, hmem, hdisplay, hindex, hdelay, hsound, hwait, hrandom⟩

/-- Settles O56: a raising instruction writes no register. -/
theorem registersChangeOnlyAsDestinationOrFlag : Obligations.RegistersChangeOnlyAsDestinationOrFlag := by
  intro i s t r h hd hf
  rcases exec_next_cases h with ⟨f, -, rfl⟩ | ⟨hc, -⟩
  · rfl
  · exact hc.reg hd hf

/-- The `pc` an instruction leaves when it completes and when it raises. -/
theorem exec_pc {i : Instr} {s t : State} (h : exec i s = .next t) (hf : s.fault = none) :
    (t.fault = none → t.pc = i.nextPc s) ∧ (t.fault ≠ none → t.pc = s.pc) := by
  rcases exec_next_cases h with ⟨f, -, rfl⟩ | ⟨hc, hfault⟩
  · exact ⟨(nomatch ·), fun _ => rfl⟩
  · exact ⟨fun _ => hc.pc, fun hne => absurd (hfault.trans hf) hne⟩

theorem step_of_fault {s : State} {f : Fault} (h : s.fault = some f) : step s = .fault f := by
  simp only [step, runCycle, h]

theorem step_ne_next {s : State} (h : s.fault ≠ none) (t : State) : step s ≠ .next t := by
  obtain ⟨f, hf⟩ := Option.ne_none_iff_exists'.1 h
  rw [step_of_fault hf]
  exact nofun

/-- A step that waits for a key or raises leaves `pc` (40_cycle_dispatch.md R93, R98). -/
theorem step_pc_of_waiting_or_raised {s t : State} (hs : step s = .next t) (h : s.waiting = true ∨ t.fault ≠ none) :
    t.pc = s.pc := by
  rcases step_next_cases hs with ⟨-, -, rfl⟩ | ⟨-, -, f, -, rfl⟩ | ⟨⟨hf, hw⟩, -, i, -, hi⟩
  · rw [State.awaitKey_frame]
    rfl
  · rfl
  · have hraised : t.fault ≠ none := h.resolve_left (by simp [hw])
    exact (exec_pc (s := s.entered) hi hf).2 hraised

/-- Settles O18: the table is `exec_pc`; below 0xFFE neither sum reaches 0x10000. -/
theorem nextPcTable : Obligations.NextPcTable := by
  refine ⟨fun _ _ _ hf h => exec_pc h hf, fun _ _ => step_pc_of_waiting_or_raised, fun _ => step_ne_next,
    fun s hpc => ?_⟩
  constructor <;> bv_omega

end Machine

end Sys2Proof
end

section
/-! The invariant of every reachable state (10_state.md section 13): what an instruction keeps, then the step, then
every move of the host. -/
namespace Sys2Proof

open Machine

theorem zext16_toNat {n : Nat} (hn : n ≤ 16) (v : BitVec n) : (zext16 v).toNat = v.toNat :=
  BitVec.toNat_setWidth_of_le hn

/-- The sum `jump-offset` forms fits in `pc` (41_control_flow.md R117). -/
theorem jumpOffset_toNat (nnn : Addr12) (b : Byte) : (zext16 nnn + zext16 b).toNat = nnn.toNat + b.toNat := by
  have hn := nnn.isLt
  have hb := b.isLt
  rw [BitVec.toNat_add, zext16_toNat (by decide), zext16_toNat (by decide)]
  omega

/-- The bound on `pc`: the largest value is a `jump-offset` from 0xFFF by 0xFF. -/
theorem Instr.nextPc_le {s : State} (i : Instr) (hpc : s.pc.toNat ≤ 0xFFE)
    (hslot : ∀ k : Fin 16, s.stack[k].toNat ≤ 0x1000) : (i.nextPc s).toNat ≤ 0x10FE := by
  have h2 : (s.pc + 2).toNat ≤ 0x10FE := by bv_omega
  have h4 : (s.pc + 4).toNat ≤ 0x10FE := by bv_omega
  cases i with
  | ret =>
    have hlt : s.sp.val - 1 < 16 := by omega
    simp only [Instr.nextPc, dif_pos hlt]
    exact (hslot ⟨_, hlt⟩).trans (by decide)
  | jump nnn | call nnn =>
    have hn := nnn.isLt
    simp only [Instr.nextPc, zext16_toNat (show 12 ≤ 16 by decide)]
    omega
  | jumpOffset nnn =>
    have hn := nnn.isLt
    have hb := (s.reg 0).isLt
    simp only [Instr.nextPc, jumpOffset_toNat]
    omega
  | skipEqImm | skipNeImm | skipEqReg | skipNeReg | skipKey | skipNokey =>
    simp only [Instr.nextPc]
    split <;> assumption
  | _ => exact h2

namespace Machine

variable {i : Instr} {s t : State}

theorem exec_keeps_memWf (h : exec i s = .next t) (hm : s.mem.wf = true) : t.mem.wf = true := by
  cases hst : i.storesMemory with
  | false => rwa [(exec_frame h).mem hst]
  | true =>
    rcases exec_next_cases h with ⟨f, -, rfl⟩ | ⟨hc, -⟩
    · exact hm
    · cases i with
      | bcd x =>
        obtain ⟨hle, rfl⟩ := hc
        exact Memory.wf_putAll _ _ _ hm (.inr (by rw [bcdDigits_length]; omega))
      | storeRegs x =>
        obtain ⟨hle, rfl⟩ := hc
        exact Memory.wf_putAll _ _ _ hm (.inr (by rw [State.regsUpTo_length]; omega))
      | _ => cases hst

theorem exec_keeps_slotLe (h : exec i s = .next t) (hpc : s.pc.toNat ≤ 0xFFE)
    (hslot : ∀ k : Fin 16, s.stack[k].toNat ≤ 0x1000) (k : Fin 16) : t.stack[k].toNat ≤ 0x1000 := by
  by_cases hcall : ∃ nnn, i = .call nnn
  · obtain ⟨nnn, rfl⟩ := hcall
    rcases exec_next_cases h with ⟨f, -, rfl⟩ | ⟨⟨hlt, rfl⟩, -⟩
    · exact hslot k
    · have hret : (s.pc + 2).toNat ≤ 0x1000 := by bv_omega
      simp only [Fin.getElem_fin, Vector.getElem_set]
      split
      · exact hret
      · exact hslot k
  · rw [(exec_frame h).stack fun nnn e => hcall ⟨nnn, e⟩]
    exact hslot k

theorem exec_keeps_pcLe (h : exec i s = .next t) (hf : s.fault = none) (hpc : s.pc.toNat ≤ 0xFFE)
    (hslot : ∀ k : Fin 16, s.stack[k].toNat ≤ 0x1000) : t.pc.toNat ≤ 0x10FE := by
  obtain ⟨hdone, hraised⟩ := exec_pc h hf
  by_cases ht : t.fault = none
  · rw [hdone ht]
    exact i.nextPc_le hpc hslot
  · rw [hraised ht]
    omega

theorem exec_waitingUnchanged (h : exec i s = .next t) (hw : s.waiting = false) (hc : s.changed = false)
    (ht : t.waiting = true) : t.changed = false := by
  have hframe := exec_frame h
  cases htouch : i.touchesDisplay with
  | false => exact (hframe.display htouch).2.trans hc
  | true =>
    have hwait : t.waiting = s.waiting := (hframe.wait fun x e => by simp [e, Instr.touchesDisplay] at htouch).1
    exact absurd (ht.symm.trans (hwait.trans hw)) (by decide)

theorem exec_faultAtPc (h : exec i s = .next t) (hf : s.fault = none) (hc : s.changed = false) (f : Fault)
    (ht : t.fault = some f) : f.pc = t.pc ∧ t.changed = false := by
  rcases exec_next_cases h with ⟨g, hg, rfl⟩ | ⟨-, hfault⟩
  · cases ht
    exact ⟨hg, hc⟩
  · exact absurd ((hfault.trans hf).symm.trans ht) (by simp)

/-- An instruction run by the step, that is from a fetchable `pc`, in RUNNING mode, with `changed` clear and nothing
latched, keeps the invariant. -/
theorem State.Inv.exec (hi : s.Inv) (h : exec i s = .next t) (hpc : s.pc.toNat ≤ 0xFFE) (hr : s.Running)
    (hc : s.changed = false) : t.Inv where
  memWf := exec_keeps_memWf h hi.memWf
  pcLe := exec_keeps_pcLe h hr.1 hpc hi.slotLe
  slotLe := exec_keeps_slotLe h hpc hi.slotLe
  waitingUnchanged := exec_waitingUnchanged h hr.2 hc
  faultAtPc := exec_faultAtPc h hr.1 hc

theorem State.Inv.entered (hi : s.Inv) : s.entered.Inv where
  memWf := hi.memWf
  pcLe := hi.pcLe
  slotLe := hi.slotLe
  waitingUnchanged := fun _ => rfl
  faultAtPc := fun f hf => ⟨(hi.faultAtPc f hf).1, rfl⟩

theorem State.Inv.raise (hi : s.Inv) {f : Fault} (hf : f.pc = s.pc) (hc : s.changed = false) : (s.raise f).Inv where
  memWf := hi.memWf
  pcLe := hi.pcLe
  slotLe := hi.slotLe
  waitingUnchanged := fun _ => hc
  faultAtPc := fun g hg => by
    cases hg
    exact ⟨hf, hc⟩

theorem State.Inv.awaitKey (hi : s.Inv) (hf : s.fault = none) : (s.setChanged false).awaitKey.Inv := by
  rw [State.awaitKey_frame]
  exact {
    memWf := hi.memWf
    pcLe := hi.pcLe
    slotLe := hi.slotLe
    waitingUnchanged := fun _ => rfl
    faultAtPc := fun f hf' => absurd (hf.symm.trans hf') (by simp) }

/-- Settles O58, by the cases of a step: it waited for a key, it raised, or it ran an instruction from the entered
state, which has the invariant with `changed` clear. -/
theorem stepKeepsTheInvariant : Obligations.StepKeepsTheInvariant := by
  intro s t hi hs
  rcases step_next_cases hs with ⟨hf, -, rfl⟩ | ⟨-, -, f, hpc, rfl⟩ | ⟨hr, hpc, i, -, h⟩
  · exact hi.awaitKey hf
  · exact hi.entered.raise hpc rfl
  · exact hi.entered.exec h hpc hr rfl

/-! ## The host's moves -/

/-- Settles O59. -/
theorem resetHasTheInvariant : Obligations.ResetHasTheInvariant where
  memWf := rfl
  pcLe := by decide
  slotLe := by decide
  waitingUnchanged := fun _ => rfl
  faultAtPc := fun _ hf => nomatch hf

theorem State.inv_hostReset (s : State) : s.hostReset.Inv where
  memWf := resetHasTheInvariant.memWf
  pcLe := resetHasTheInvariant.pcLe
  slotLe := resetHasTheInvariant.slotLe
  waitingUnchanged := resetHasTheInvariant.waitingUnchanged
  faultAtPc := resetHasTheInvariant.faultAtPc

/-- The program fits: at most 3584 bytes are placed from 0x200 (70_reset_and_hazards.md R202). -/
theorem State.Inv.load (hi : s.Inv) (bytes : List Byte) : (s.load bytes).1.Inv where
  memWf := by
    refine Memory.wf_putAll _ _ _ hi.memWf (.inr ?_)
    have hlen : (bytes.take 3584).length ≤ 3584 := bytes.length_take_le 3584
    show 0x200 + (bytes.take 3584).length ≤ 4096
    omega
  pcLe := hi.pcLe
  slotLe := hi.slotLe
  waitingUnchanged := hi.waitingUnchanged
  faultAtPc := hi.faultAtPc

theorem State.Inv.setKey (hi : s.Inv) (k : RegIdx) (b : Bool) : (s.setKey k b).Inv where
  memWf := hi.memWf
  pcLe := hi.pcLe
  slotLe := hi.slotLe
  waitingUnchanged := hi.waitingUnchanged
  faultAtPc := hi.faultAtPc

theorem State.Inv.injectRandom (hi : s.Inv) (bytes : List Byte) : (s.injectRandom bytes).Inv where
  memWf := hi.memWf
  pcLe := hi.pcLe
  slotLe := hi.slotLe
  waitingUnchanged := hi.waitingUnchanged
  faultAtPc := hi.faultAtPc

/-- A cycle moves to the next state, or stays where a condition is latched (40_cycle_dispatch.md R91). -/
theorem State.Inv.cycle (hi : s.Inv) {r : StepResult} (h : cycle s = some (t, r)) : t.Inv := by
  unfold Machine.cycle at h
  split at h
  next u hu =>
    cases h
    exact stepKeepsTheInvariant s _ hi hu
  next =>
    cases h
    exact hi
  next => cases h

theorem Session.apply_load_some {m m' : Session} {bytes : List Byte} (h : m.apply (.load bytes) = some m') :
    m.stepped = false ∧ m' = { m with state := (m.state.load bytes).1 } := by
  simp only [Session.apply] at h
  split at h <;> cases h
  next hs => exact ⟨Bool.eq_false_iff.2 hs, rfl⟩

theorem Session.apply_keyDown_some {m m' : Session} {k : Nat} (h : m.apply (.keyDown k) = some m') :
    ∃ hk : k < 16, m' = { m with state := m.state.keyDown ⟨k, hk⟩ } := by
  simp only [Session.apply] at h
  split at h <;> cases h
  next hk => exact ⟨hk, rfl⟩

theorem Session.apply_keyUp_some {m m' : Session} {k : Nat} (h : m.apply (.keyUp k) = some m') :
    ∃ hk : k < 16, m' = { m with state := m.state.keyUp ⟨k, hk⟩ } := by
  simp only [Session.apply] at h
  split at h <;> cases h
  next hk => exact ⟨hk, rfl⟩

theorem Session.apply_keeps_inv {m m' : Session} {e : HostEvent} (hi : m.state.Inv) (h : m.apply e = some m') :
    m'.state.Inv := by
  cases e with
  | reset =>
    cases h
    exact State.inv_hostReset _
  | load bytes =>
    obtain ⟨-, rfl⟩ := Session.apply_load_some h
    exact hi.load bytes
  | keyDown k =>
    obtain ⟨hk, rfl⟩ := Session.apply_keyDown_some h
    exact hi.setKey ⟨k, hk⟩ true
  | keyUp k =>
    obtain ⟨hk, rfl⟩ := Session.apply_keyUp_some h
    exact hi.setKey ⟨k, hk⟩ false
  | injectRandom bytes =>
    cases h
    exact hi.injectRandom bytes
  | step =>
    obtain ⟨⟨t, r⟩, hr, rfl⟩ := Option.map_eq_some_iff.1 h
    exact hi.cycle hr

theorem Session.run_keeps_inv {es : List HostEvent} {m m' : Session} (hi : m.state.Inv)
    (h : Session.run es m = some m') : m'.state.Inv := by
  induction es generalizing m with
  | nil =>
    cases h
    exact hi
  | cons e es ih =>
    obtain ⟨n, hn, hrun⟩ := Option.bind_eq_some_iff.1 h
    exact ih (Session.apply_keeps_inv hi hn) hrun

/-- Settles O60: one move, then induction over the moves from `new()`. -/
theorem everySessionHasTheInvariant : Obligations.EverySessionHasTheInvariant :=
  ⟨fun _ _ _ => Session.apply_keeps_inv, fun _ _ => Session.run_keeps_inv resetHasTheInvariant⟩

end Machine

end Sys2Proof
end

section
/-! Frames, one update after another: if only parts `may` names have changed and it names what the next update writes,
then still only parts it names have changed. -/
namespace Sys2Proof.Machine

theorem OnlyChanges.refl (s : State) (may : Part → Prop) : OnlyChanges s s may := by
  intro p _
  cases p <;> rfl

variable {s t : State} {may : Part → Prop} (h : OnlyChanges s t may)
include h

theorem OnlyChanges.setReg {r : RegIdx} (b : Byte) (hm : may (.reg r)) : OnlyChanges s (t.setReg r b) may :=
  h.trans ((onlyChanges_setReg t r b).mono fun _ e => e ▸ hm)

theorem OnlyChanges.setFlag (b : Bool) (hm : may (.reg 15)) : OnlyChanges s (t.setFlag b) may :=
  h.setReg (r := 15) _ hm

theorem OnlyChanges.advance (hm : may .pc) : OnlyChanges s t.advance may :=
  h.trans ((onlyChanges_advance t).mono fun _ e => e ▸ hm)

theorem OnlyChanges.setChanged (b : Bool) (hm : may .changed) : OnlyChanges s (t.setChanged b) may :=
  h.trans ((onlyChanges_setChanged t b).mono fun _ e => e ▸ hm)

theorem OnlyChanges.setPc (a : Word) (hm : may .pc) : OnlyChanges s (t.setPc a) may := by
  refine h.trans fun p hp => ?_
  cases p with
  | pc => exact absurd hm hp
  | _ => rfl

theorem OnlyChanges.skipIf (c : Bool) (hm : may .pc) : OnlyChanges s (t.skipIf c) may := h.setPc _ hm

theorem OnlyChanges.setSp (a : Fin 17) (hm : may .sp) : OnlyChanges s { t with sp := a } may := by
  refine h.trans fun p hp => ?_
  cases p with
  | sp => exact absurd hm hp
  | _ => rfl

theorem OnlyChanges.setSlot {k : Nat} (hk : k < 16) (a : Word) (hm : may (.slot ⟨k, hk⟩)) :
    OnlyChanges s { t with stack := t.stack.set k a } may := by
  refine h.trans fun p hp => ?_
  cases p with
  | slot j =>
    have hjk : k ≠ j.val := fun e => hp ((Fin.ext e : (⟨k, hk⟩ : Fin 16) = j) ▸ hm)
    exact Vector.getElem_set_ne hk j.isLt hjk
  | _ => rfl

theorem OnlyChanges.setI (a : Word) (hm : may .index) : OnlyChanges s (t.setI a) may := by
  refine h.trans fun p hp => ?_
  cases p with
  | index => exact absurd hm hp
  | _ => rfl

theorem OnlyChanges.setDt (b : Byte) (hm : may .delay) : OnlyChanges s (t.setDt b) may := by
  refine h.trans fun p hp => ?_
  cases p with
  | delay => exact absurd hm hp
  | _ => rfl

theorem OnlyChanges.setSt (b : Byte) (hm : may .sound) : OnlyChanges s (t.setSt b) may := by
  refine h.trans fun p hp => ?_
  cases p with
  | sound => exact absurd hm hp
  | _ => rfl

theorem OnlyChanges.setKey {k : RegIdx} (b : Bool) (hm : may (.key k)) : OnlyChanges s (t.setKey k b) may := by
  refine h.trans fun p hp => ?_
  cases p with
  | key j =>
    have hjk : j ≠ k := fun e => hp (e ▸ hm)
    exact (t.setKey_keyAt k b j).trans (if_neg hjk)
  | _ => rfl

theorem OnlyChanges.beginWait (x : RegIdx) (hw : may .waiting) (hr : may .waitReg) :
    OnlyChanges s (t.beginWait x) may := by
  refine h.trans fun p hp => ?_
  cases p with
  | waiting => exact absurd hw hp
  | waitReg => exact absurd hr hp
  | _ => rfl

theorem OnlyChanges.consumeRnd (hs : may .rndSeq) (hd : may .rndDraws) : OnlyChanges s t.consumeRnd may := by
  refine h.trans fun p hp => ?_
  cases p with
  | rndSeq => exact absurd hs hp
  | rndDraws => exact absurd hd hp
  | _ => rfl

/-- Bytes written at ascending addresses. -/
theorem OnlyChanges.putAll (base : Nat) (bs : List Byte) (hm : ∀ k < bs.length, may (.byte (base + k))) :
    OnlyChanges s (t.setMem (t.mem.putAll base bs)) may := by
  refine h.trans fun p hp => ?_
  cases p with
  | byte a =>
    have hout : ∀ k < bs.length, a ≠ base + k := fun k hk e => hp (e ▸ hm k hk)
    exact Memory.read_congr (Memory.get_putAll_outside bs t.mem base a hout)
  | _ => rfl

/-- Several registers loaded at once. -/
theorem OnlyChanges.setRegsFrom (k : Nat) (bs : List Byte)
    (hm : ∀ q, ¬ may (.reg q) → (t.setRegsFrom k bs).reg q = t.reg q) : OnlyChanges s (t.setRegsFrom k bs) may := by
  refine h.trans fun p hp => ?_
  cases p with
  | reg q => exact hm q hp
  | _ =>
    rw [State.setRegsFrom_frame]
    rfl

/-- A sprite drawn: `VF` and the display. -/
theorem OnlyChanges.drawRows (x y : RegIdx) (row : Nat) (bs : List Byte) (hf : may (.reg 15))
    (hp : ∀ r c, may (.pixel r c)) : OnlyChanges s (drawRows x y row bs t) may := by
  refine h.trans fun p hm => ?_
  cases p with
  | reg q =>
    have hq : q ≠ 15 := fun e => hm (e ▸ hf)
    exact drawRows_reg x y bs row t q hq
  | pixel r c => exact absurd (hp r c) hm
  | _ =>
    rw [drawRows_frame]
    rfl

end Sys2Proof.Machine
end

section
/-! Control flow (41_control_flow.md), the keypad and the timers (45_keypad_timers.md). -/
namespace Sys2Proof.Machine

theorem setSp_setPc_frame (s : State) (k : Fin 17) (a : Word) :
    OnlyChanges s { s with sp := k, pc := a } fun p => p = .pc ∨ p = .sp :=
  .setPc (t := { s with sp := k }) (.setSp (.refl s _) k (.inr rfl)) a (.inl rfl)

/-- Settles O20. -/
theorem returnPopsIntoPc : Obligations.ReturnPopsIntoPc := fun s =>
  ⟨fun _ hk => ⟨_, exec_ret_of_pushed hk, rfl, rfl, setSp_setPc_frame s _ _⟩, exec_ret_of_empty⟩

/-- Settles O21. -/
theorem jumpLoadsPc : Obligations.JumpLoadsPc := fun s nnn =>
  ⟨s.setPc (zext16 nnn), rfl, zext16_toNat (by decide) nnn, OnlyChanges.setPc (.refl s _) _ rfl⟩

theorem setSlot_setSp_setPc_frame (s : State) {k : Nat} (hk : k < 16) (b : Word) (n : Fin 17) (a : Word) :
    OnlyChanges s { s with stack := s.stack.set k b, sp := n, pc := a }
      fun p => p = .pc ∨ p = .sp ∨ p = .slot ⟨k, hk⟩ :=
  .setPc (t := { s with stack := s.stack.set k b, sp := n })
    (.setSp (.setSlot (.refl s _) hk b (.inr (.inr rfl))) n (.inr (.inl rfl))) a (.inl rfl)

/-- Settles O22: the slot written is the one `sp` names. -/
theorem callPushesReturnAddress : Obligations.CallPushesReturnAddress := by
  refine fun s nnn => ⟨fun k hk => ?_, exec_call_of_full nnn⟩
  have hlt : s.sp.val < 16 := hk ▸ k.isLt
  obtain rfl : ⟨s.sp.val, hlt⟩ = k := Fin.ext hk
  exact ⟨_, exec_call_of_room nnn hlt, Vector.getElem_set_self hlt, rfl, zext16_toNat (by decide) nnn,
    setSlot_setSp_setPc_frame s hlt _ _ _⟩

/-- Settles O26: `return` pops the slot that `call` wrote. -/
theorem returnUndoesCall : Obligations.ReturnUndoesCall := by
  intro s t u nnn hlt hcall hsp hstack
  cases (exec_call_of_room nnn hlt).symm.trans hcall
  have hpushed : u.sp.val = (⟨s.sp.val, hlt⟩ : Fin 16).val + 1 := congrArg Fin.val hsp
  refine ⟨_, exec_ret_of_pushed hpushed, ?_, rfl⟩
  show u.stack[s.sp.val] = s.pc + 2
  simp only [hstack, Vector.getElem_set_self]

theorem skipIf_frame (s : State) (c : Bool) : OnlyChanges s (s.skipIf c) (· = .pc) :=
  .skipIf (.refl s _) c rfl

/-- Settles O23. -/
theorem skipOnImmediate : Obligations.SkipOnImmediate := by
  refine fun s x nn => ⟨⟨s.skipIf (s.reg x = nn), rfl, ?_, skipIf_frame _ _⟩,
    ⟨s.skipIf (s.reg x ≠ nn), rfl, ?_, skipIf_frame _ _⟩⟩
  · simp
  · simp

/-- Settles O24. -/
theorem skipOnRegisters : Obligations.SkipOnRegisters := by
  refine fun s x y => ⟨⟨s.skipIf (s.reg x = s.reg y), rfl, ?_, ?_, skipIf_frame _ _⟩,
    ⟨s.skipIf (s.reg x ≠ s.reg y), rfl, ?_, ?_, skipIf_frame _ _⟩⟩
  · simp
  · rintro rfl
    simp
  · simp
  · rintro rfl
    simp

/-- Settles O25. -/
theorem jumpOffsetAddsRegisterZero : Obligations.JumpOffsetAddsRegisterZero := fun s nnn =>
  ⟨s.setPc (zext16 nnn + zext16 (s.reg 0)), rfl, jumpOffset_toNat nnn (s.reg 0), OnlyChanges.setPc (.refl s _) _ rfl⟩

/-- Settles O46: the register's value is the key's index when there is such a key. -/
theorem skipOnKeyLevel : Obligations.SkipOnKeyLevel := by
  refine fun s x => ⟨fun k hk => ⟨⟨_, exec_skipKey_of_key hk, rfl, skipIf_frame _ _⟩,
    ⟨_, exec_skipNokey_of_key hk, ?_, skipIf_frame _ _⟩⟩, fun hgt => ⟨exec_skipKey_of_gt hgt, exec_skipNokey_of_gt hgt⟩⟩
  cases s.keyAt k <;> simp

/-- Settles O47. -/
theorem waitKeyLatchesItsTarget : Obligations.WaitKeyLatchesItsTarget := fun s x =>
  ⟨(s.beginWait x).advance, rfl, rfl, rfl, rfl,
    .advance (.beginWait (.refl s _) x (.inr (.inl rfl)) (.inr (.inr rfl))) (.inl rfl)⟩

theorem setReg_reg_self (s : State) (r : RegIdx) (b : Byte) : (s.setReg r b).reg r = b := by
  rw [State.setReg_reg, if_pos rfl]

/-- The frame of an instruction with one destination. -/
theorem setReg_advance_frame (s : State) (r : RegIdx) (b : Byte) :
    OnlyChanges s (s.setReg r b).advance fun p => p = .pc ∨ p = .reg r :=
  .advance (.setReg (.refl s _) b (.inr rfl)) (.inl rfl)

/-- Settles O48. -/
theorem timerInstructions : Obligations.TimerInstructions := fun s x =>
  ⟨⟨(s.setReg x s.dt).advance, rfl, setReg_reg_self s x s.dt, rfl, setReg_advance_frame s x s.dt⟩,
    ⟨(s.setDt (s.reg x)).advance, rfl, rfl, rfl, .advance (.setDt (.refl s _) _ (.inr rfl)) (.inl rfl)⟩,
    ⟨(s.setSt (s.reg x)).advance, rfl, rfl, rfl, .advance (.setSt (.refl s _) _ (.inr rfl)) (.inl rfl)⟩⟩

end Sys2Proof.Machine
end

section
/-! Registers and arithmetic (42_alu.md). -/
namespace Sys2Proof.Machine

/-! ## Bytes and flags as numbers -/

theorem byte_sub_toNat (a b : Byte) : (a - b).toNat = (256 + a.toNat - b.toNat) % 256 := by
  have hb := b.isLt
  rw [BitVec.toNat_sub]
  omega

theorem flagByte_decide (p : Prop) [Decidable p] : flagByte (decide p) = if p then 1 else 0 := by
  by_cases hp : p <;> simp [hp]

theorem flagByte_toNat (b : Bool) : (flagByte b).toNat = b.toNat := by
  cases b <;> rfl

theorem flagByte_decide_toNat (p : Prop) [Decidable p] : (flagByte (decide p)).toNat = if p then 1 else 0 := by
  by_cases hp : p <;> simp [hp]

theorem bitZero_toNat (a : Byte) : (bitZero a).toNat = a.toNat % 2 := by
  rw [bitZero, BitVec.getLsbD, Nat.testBit_zero]
  have := Nat.mod_two_eq_zero_or_one a.toNat
  rcases this with h | h <;> simp [h]

theorem bitSeven_toNat (a : Byte) : (bitSeven a).toNat = a.toNat / 128 := by
  have ha := a.isLt
  have hbit : bitSeven a = decide (128 ≤ a.toNat) := by
    rw [bitSeven, ← BitVec.msb_eq_getLsbD_last a, BitVec.msb_eq_decide]
  rw [hbit]
  by_cases h : 128 ≤ a.toNat
  · simp only [h, decide_true, Bool.toNat_true]
    omega
  · simp only [h, decide_false, Bool.toNat_false]
    omega

/-! ## The instructions -/

/-- Settles O27. -/
theorem loadAddImmediateAndMove : Obligations.LoadAddImmediateAndMove := by
  refine fun s x y nn => ⟨⟨(s.setReg x nn).advance, rfl, setReg_reg_self _ _ _, rfl, setReg_advance_frame _ _ _⟩,
    ⟨(s.setReg x (s.reg x + nn)).advance, rfl, ?_, rfl, setReg_advance_frame _ _ _⟩,
    ⟨(s.setReg x (s.reg y)).advance, rfl, setReg_reg_self _ _ _, rfl, setReg_advance_frame _ _ _⟩⟩
  rw [State.advance_reg, setReg_reg_self, BitVec.toNat_add]

/-- Settles O28. -/
theorem logicIsBitwise : Obligations.LogicIsBitwise := by
  refine fun s x y => ⟨⟨(s.setReg x (s.reg x ||| s.reg y)).advance, rfl, rfl, ?_, setReg_advance_frame _ _ _⟩,
    ⟨(s.setReg x (s.reg x &&& s.reg y)).advance, rfl, rfl, ?_, setReg_advance_frame _ _ _⟩,
    ⟨(s.setReg x (s.reg x ^^^ s.reg y)).advance, rfl, rfl, ?_, setReg_advance_frame _ _ _⟩⟩ <;>
  intro k _ <;> rw [State.advance_reg, setReg_reg_self]
  · exact BitVec.getLsbD_or
  · exact BitVec.getLsbD_and
  · exact BitVec.getLsbD_xor

/-- The frame of an instruction that writes a destination and the flag, in either order. -/
theorem setReg_setFlag_frame (s : State) (x : RegIdx) (b : Byte) (c : Bool) :
    OnlyChanges s ((s.setReg x b).setFlag c).advance fun p => p = .pc ∨ p = .reg x ∨ p = .reg 15 :=
  .advance (.setFlag (.setReg (.refl s _) b (.inr (.inl rfl))) c (.inr (.inr rfl))) (.inl rfl)

theorem setFlag_setReg_frame (s : State) (x : RegIdx) (b : Byte) (c : Bool) :
    OnlyChanges s ((s.setFlag c).setReg x b).advance fun p => p = .pc ∨ p = .reg x ∨ p = .reg 15 :=
  .advance (.setReg (.setFlag (.refl s _) c (.inr (.inr rfl))) b (.inr (.inl rfl))) (.inl rfl)

/-- Settles O29: the flag is written after the sum, so with `X = 15` it is what remains. -/
theorem addWritesSumThenCarry : Obligations.AddWritesSumThenCarry := by
  intro s x y
  have hx := (s.reg x).isLt
  have hy := (s.reg y).isLt
  refine ⟨_, rfl, ?_, fun h15 => ?_, rfl, setReg_setFlag_frame _ _ _ _⟩
  · rw [State.advance_reg, State.setFlag_reg, if_pos rfl, carries, flagByte_decide]
  · simp only [State.advance_reg, State.setFlag_reg, setReg_reg_self, if_neg h15, if_true, carries,
      flagByte_decide_toNat, BitVec.toNat_ofNat]
    split <;> omega

/-- The difference of two registers read after the flag `c` is written, wherever it goes. -/
theorem difference_toNat (s : State) (c : Bool) (x a b : RegIdx) :
    (((s.setFlag c).setReg x ((s.setFlag c).reg a - (s.setFlag c).reg b)).advance.reg x).toNat =
      (256 + (if a = 15 then flagByte c else s.reg a).toNat -
        (if b = 15 then flagByte c else s.reg b).toNat) % 256 := by
  rw [State.advance_reg, setReg_reg_self, byte_sub_toNat, State.setFlag_reg, State.setFlag_reg]

/-- Settles O30: both operands are read after the flag is written. -/
theorem subWritesFlagThenDifference : Obligations.SubWritesFlagThenDifference := by
  intro s x y vx vy f
  have hflag : (flagByte (exceeds (s.reg x) (s.reg y))).toNat = f := flagByte_decide_toNat _
  refine ⟨_, rfl, fun hx => ?_, fun hx hy => ?_, fun hx hy => ?_, fun hx hy => ?_, fun hx hy => ?_, rfl,
    setFlag_setReg_frame _ _ _ _⟩
  · rw [State.advance_reg, State.setReg_reg, if_neg (Ne.symm hx), State.setFlag_reg, if_pos rfl, hflag]
  · rw [difference_toNat, if_neg hx, if_neg hy]
  · rw [difference_toNat, if_neg hx, if_pos hy, hflag]
  · rw [difference_toNat, if_pos hx, if_neg hy, hflag]
  · simp [hx, hy]

/-- Settles O31: as `sub` with the operands exchanged. -/
theorem subnWritesFlagThenDifference : Obligations.SubnWritesFlagThenDifference := by
  intro s x y vx vy f
  have hflag : (flagByte (exceeds (s.reg y) (s.reg x))).toNat = f := flagByte_decide_toNat _
  refine ⟨_, rfl, fun hx => ?_, fun hx hy => ?_, fun hx hy => ?_, fun hx hy => ?_, fun hx hy => ?_, rfl,
    setFlag_setReg_frame _ _ _ _⟩
  · rw [State.advance_reg, State.setReg_reg, if_neg (Ne.symm hx), State.setFlag_reg, if_pos rfl, hflag]
  · rw [difference_toNat, if_neg hx, if_neg hy]
  · rw [difference_toNat, if_pos hy, if_neg hx, hflag]
  · rw [difference_toNat, if_neg hy, if_pos hx, hflag]
  · simp [hx, hy]

/-- Settles O32: with `X = 15` the flag itself is shifted. -/
theorem shiftsWriteTheBitShiftedOut : Obligations.ShiftsWriteTheBitShiftedOut := by
  intro s x vx
  have hx := (s.reg x).isLt
  refine ⟨⟨_, rfl, fun h15 => ⟨?_, ?_⟩, fun h15 => ?_, rfl, setFlag_setReg_frame _ _ _ _⟩,
    ⟨_, rfl, fun h15 => ⟨?_, ?_⟩, fun h15 => ?_, rfl, setFlag_setReg_frame _ _ _ _⟩⟩
  · simp [Ne.symm h15, flagByte_toNat, bitZero_toNat, vx]
  · simp [h15, Nat.shiftRight_eq_div_pow, vx]
  · subst h15
    cases bitZero (s.reg 15) <;> simp
  · simp [Ne.symm h15, flagByte_toNat, bitSeven_toNat, vx]
  · simp [h15, Nat.shiftLeft_eq, vx]
  · subst h15
    simp [Nat.shiftLeft_eq, flagByte_toNat, bitSeven_toNat, vx]
    omega

/-- Settles O33: the byte is whatever `State.rnd` is; the injected bytes come first. -/
theorem randMasksTheSuppliedByte : Obligations.RandMasksTheSuppliedByte := by
  intro s x nn
  have hreg : ((s.consumeRnd.setReg x (s.rnd &&& nn)).advance).reg x = s.rnd &&& nn := setReg_reg_self _ _ _
  refine ⟨_, rfl, hreg, fun b rest hseq => ⟨?_, congrArg List.tail hseq⟩, fun hseq => congrArg List.tail hseq, rfl,
    fun k hk => ?_, rfl, ?_⟩
  · rw [hreg, State.rnd, hseq]
  · rw [hreg, BitVec.getLsbD_and, Bool.and_eq_true] at hk
    exact hk.2
  · exact .advance (.setReg (.consumeRnd (.refl s _) (.inr (.inr (.inl rfl))) (.inr (.inr (.inr rfl)))) _
      (.inr (.inl rfl))) (.inl rfl)

end Sys2Proof.Machine
end

section
/-! Memory (20_memory.md) and the instructions that use the address register (43_index_memory.md). -/
namespace Sys2Proof.Machine

/-! ## Memory -/

/-- Settles O49: the range check is `inRange`, and reads after the writes are those of `putAll`. -/
theorem readGivesTheLastWrite : Obligations.ReadGivesTheLastWrite := by
  intro m base bs
  refine ⟨?_, fun m' hw => ?_⟩
  · rw [Memory.writeBytes_none]
    constructor
    · rintro ⟨h0, hlt⟩
      exact ⟨bs.length - 1, by omega, by omega⟩
    · rintro ⟨k, hk, hlt⟩
      omega
  · have hr : bs.length = 0 ∨ base + bs.length ≤ 4096 := by
      by_contra hn
      cases ((Memory.writeBytes_none m base bs).2 (by omega)).symm.trans hw
    cases (Memory.writeBytes_some m base bs hr).symm.trans hw
    refine ⟨fun k hk => ?_, fun a hout => ?_, fun a => ?_⟩
    · rw [Memory.read_eq, if_pos (by omega), Memory.get_putAll_inside]
    · exact Memory.read_congr (Memory.get_putAll_outside bs m base a hout)
    · rw [Memory.read_eq]
      split <;> simp <;> omega

/-- What a canonical memory lists: the bytes of memory that differ from the reset contents (log 27). -/
theorem Memory.mem_iff_of_wf {m : Memory} (hm : m.wf = true) (a : Nat) (b : Byte) :
    (a, b) ∈ m ↔ m.read a = some b ∧ b ≠ Memory.initial a := by
  rw [← Memory.lookup_eq_some m hm, Memory.read_eq, Memory.get]
  constructor
  · intro h
    obtain ⟨hlt, hne⟩ := ((Memory.wf_iff m).1 hm).2 _ ((Memory.lookup_eq_some m hm a b).1 h)
    rw [if_pos hlt, h]
    exact ⟨rfl, hne⟩
  · rintro ⟨hread, hne⟩
    split at hread
    · have hget := Option.some.inj hread
      cases hl : m.lookup a with
      | none =>
        rw [hl] at hget
        exact absurd hget.symm hne
      | some c =>
        rw [hl] at hget
        exact congrArg some hget
    · cases hread

/-- Settles O50: both list the same bytes, in the same order. -/
theorem canonicalMemoriesWithEqualReadsAreEqual : Obligations.CanonicalMemoriesWithEqualReadsAreEqual := by
  intro m m' hm hm' hread
  have : Std.Asymm fun c d : Host.Cell => c.1 < d.1 := ⟨fun _ _ => Nat.lt_asymm⟩
  have : Std.Irrefl fun c d : Host.Cell => c.1 < d.1 := ⟨fun _ => Nat.lt_irrefl _⟩
  refine ((Memory.wf_iff m).1 hm).1.eq_of_mem_iff ((Memory.wf_iff m').1 hm').1 fun ⟨a, b⟩ => ?_
  rw [Memory.mem_iff_of_wf hm, Memory.mem_iff_of_wf hm', hread]

/-- A byte just stored is the one read. -/
theorem readByte_putAll {t : State} {m : Memory} {base : Nat} {bs : List Byte} (ht : t.mem = m.putAll base bs) {k : Nat}
    (hk : k < bs.length) (hle : base + k ≤ 0xFFF) : t.readByte (base + k) = some bs[k] := by
  rw [State.readByte_some _ hle, ht, Memory.get_putAll_inside]

/-! ## `I` -/

/-- Settles O34: five times a byte fits in 16 bits. -/
theorem loadIndexAndFontAddress : Obligations.LoadIndexAndFontAddress := by
  refine fun s nnn x => ⟨⟨(s.setI (zext16 nnn)).advance, rfl, zext16_toNat (by decide) nnn, rfl,
    .advance (.setI (.refl s _) _ (.inr rfl)) (.inl rfl)⟩,
    ⟨(s.setI (glyphAddr (s.reg x))).advance, rfl, ?_, rfl, .advance (.setI (.refl s _) _ (.inr rfl)) (.inl rfl)⟩⟩
  have hx := (s.reg x).isLt
  have hmul : (glyphAddr (s.reg x)).toNat = (s.reg x).toNat * 5 % 65536 := by
    rw [glyphAddr, BitVec.toNat_mul, zext16_toNat (by decide)]
    rfl
  rw [State.advance_i, State.setI_i, hmul]
  omega

/-- Settles O35: the flag is computed from the `I` just written. -/
theorem addIndexThenBoundFlag : Obligations.AddIndexThenBoundFlag := by
  intro s x
  refine ⟨_, rfl, ?_, ?_, rfl,
    .advance (.setFlag (.setI (.refl s _) _ (.inr (.inl rfl))) _ (.inr (.inr rfl))) (.inl rfl)⟩
  · show (s.i + zext16 (s.reg x)).toNat = _
    rw [BitVec.toNat_add, zext16_toNat (by decide)]
  · rw [State.advance_reg, State.setFlag_reg, if_pos rfl, passesBound, flagByte_decide]
    rfl

/-! ## Stores and loads -/

/-- Settles O36: a byte is its three decimal digits. -/
theorem bcdStoresThreeDigits : Obligations.BcdStoresThreeDigits := by
  intro s x hi
  have hx := (s.reg x).isLt
  have hread (k : Nat) (hk : k < (bcdDigits (s.reg x)).length) :
      ((s.setMem (s.mem.putAll s.i.toNat (bcdDigits (s.reg x)))).advance).readByte (s.i.toNat + k) =
        some (bcdDigits (s.reg x))[k] := by
    have hk3 : k < 3 := hk
    exact readByte_putAll rfl hk (by omega)
  refine ⟨_, _, _, _, exec_bcd_of_inside x hi, hread 0 (show 0 < 3 by decide), hread 1 (show 1 < 3 by decide),
    hread 2 (show 2 < 3 by decide), ?_, ?_, ?_, ?_, rfl, ?_⟩
  · simp [bcdDigits]
    omega
  · simp [bcdDigits]
    omega
  · simp [bcdDigits]
    omega
  · simp [bcdDigits]
    omega
  · exact .advance (.putAll (.refl s _) _ _ fun k hk => .inr ⟨k, hk, rfl⟩) (.inl rfl)

theorem regsUpTo_getElem (s : State) {x k : RegIdx} (hk : k ≤ x) (hlt : k.val < (s.regsUpTo x).length) :
    (s.regsUpTo x)[k.val] = s.reg k :=
  Option.some.inj ((List.getElem?_eq_getElem hlt).symm.trans (s.regsUpTo_getElem? x k hk))

/-- What a memory holds where `store-regs` stored the registers of `s`. -/
theorem get_storeRegs {s t : State} {x k : RegIdx} (hin : s.i.toNat + x.val ≤ 0xFFF)
    (h : exec (.storeRegs x) s = .next t) (hk : k ≤ x) : t.mem.get (s.i.toNat + k.val) = s.reg k := by
  cases (exec_storeRegs_of_inside hin).symm.trans h
  have hlt : k.val < (s.regsUpTo x).length := by
    rw [State.regsUpTo_length]
    exact Nat.lt_succ_of_le hk
  exact (Memory.get_putAll_inside _ s.mem s.i.toNat k.val hlt).trans (regsUpTo_getElem s hk hlt)

/-- Settles O37. -/
theorem storeRegsCopiesRegisters : Obligations.StoreRegsCopiesRegisters := by
  intro s x hin
  have hstore := exec_storeRegs_of_inside hin
  refine ⟨_, hstore, fun k hk => ?_, rfl, .advance (.putAll (.refl s _) _ _ fun k hk => ?_) (.inl rfl)⟩
  · have hle : k.val ≤ x.val := hk
    rw [State.readByte_some _ (by omega), get_storeRegs hin hstore hk]
  · rw [State.regsUpTo_length] at hk
    have hx := x.isLt
    exact .inr ⟨⟨k, by omega⟩, Nat.le_of_lt_succ hk, rfl⟩

/-- Settles O38. -/
theorem loadRegsCopiesMemory : Obligations.LoadRegsCopiesMemory := by
  intro s x hin
  refine ⟨_, exec_loadRegs_of_inside hin, fun k hk => ?_, ?_,
    .advance (.setRegsFrom (.refl s _) _ _ fun q hq => ?_) (.inl rfl)⟩
  · have hle : k.val ≤ x.val := hk
    rw [State.readByte_some _ (by omega), State.advance_reg, loadRegs_reg, if_pos hk]
  · rw [State.setRegsFrom_frame]
    rfl
  · have hgt : ¬ q ≤ x := fun hle => hq (.inr ⟨q, hle, rfl⟩)
    rw [loadRegs_reg, if_neg hgt]

/-- Settles O39. -/
theorem storeThenLoadRestoresRegisters : Obligations.StoreThenLoadRestoresRegisters := by
  intro s t u x hin hstore hmem hi
  have hin' : u.i.toNat + x.val ≤ 0xFFF := by rwa [hi]
  refine ⟨_, exec_loadRegs_of_inside hin', fun k hk => ?_⟩
  rw [State.advance_reg, loadRegs_reg, if_pos hk, hmem, hi, get_storeRegs hin hstore hk]

/-- Settles O40. -/
theorem fetchSeesStoredBytes : Obligations.FetchSeesStoredBytes := by
  intro s t u x k j hin hstore hj hjx hmem hpc
  have hle : j.val ≤ x.val := hjx
  have hkx : k ≤ x := Fin.le_def.2 (by omega)
  refine ⟨_, u.fetchWord_some (by omega), ?_⟩
  rw [wordOfBytes_toNat, hmem, hpc, Nat.add_assoc, ← hj, get_storeRegs hin hstore hkx, get_storeRegs hin hstore hjx]

/-- Settles O41. -/
theorem dataOutsideMemoryRaises : Obligations.DataOutsideMemoryRaises := fun _ x y _ =>
  ⟨exec_bcd_of_outside x, fun hout => ⟨exec_storeRegs_of_outside hout, exec_loadRegs_of_outside hout⟩,
    exec_draw_of_outside x y⟩

end Sys2Proof.Machine
end

section
/-! The step (40_cycle_dispatch.md sections 1, 3 and 4). -/
namespace Sys2Proof.Machine

theorem decodeBytes_pair (hi lo : Byte) (i : Instr) :
    decodeBytes [hi, lo] = .ok (i, []) ↔ decode (wordOfBytes hi lo) = .ok i := by
  unfold decodeBytes
  cases h : decode (wordOfBytes hi lo) <;> simp [h]

/-- Settles O9. -/
theorem stepRunsTheDecodedInstruction : Obligations.StepRunsTheDecodedInstruction := fun _ hi lo i hr hhi hlo hdec =>
  step_of_fetchWord hr (State.fetchWord_of_readByte hhi hlo) ((decodeBytes_pair hi lo i).1 hdec)

theorem withFetchWord_toNat (s : State) (w : Word) : s.withFetchWord 16 w.toNat = s.placeWord w := by
  rw [State.withFetchWord, Nat.mod_eq_of_lt w.isLt, BitVec.ofNat_toNat, BitVec.setWidth_eq]

/-- What placing an instruction may change: the two bytes at the `pc` it leaves, `pc`, the mode and the latch. -/
theorem placeWord_frame (s : State) (w : Word) : OnlyChanges s (s.placeWord w) fun p =>
    p = .byte (s.placeWord w).pc.toNat ∨ p = .byte ((s.placeWord w).pc.toNat + 1) ∨ p = .pc ∨ p = .waiting ∨
      p = .fault := by
  intro p hp
  cases p with
  | byte a =>
    refine Memory.read_congr (Memory.get_putAll_outside _ s.mem (s.placeWord w).pc.toNat a fun k hk e => hp ?_)
    have hk2 : k < 2 := hk
    obtain rfl | rfl : k = 0 ∨ k = 1 := by omega
    · exact .inl (congrArg Part.byte e)
    · exact .inr (.inl (congrArg Part.byte e))
  | pc | waiting | fault => simp at hp
  | _ => rfl

/-- Settles O10. -/
theorem placedWordIsRunNext : Obligations.PlacedWordIsRunNext := by
  intro s w i hi t
  have ht : t = s.placeWord w := withFetchWord_toNat s w
  rw [ht]
  exact ⟨step_of_fetchWord ⟨s.placeWord_fault w, s.placeWord_waiting w⟩ (s.placeWord_fetchWord w) hi,
    placeWord_frame s w⟩

/-- Settles O11. -/
theorem faultedMachineNeverMoves : Obligations.FaultedMachineNeverMoves := by
  intro s f hf
  have hs := step_of_fault hf
  exact ⟨hs, by simp only [cycle, hs]⟩

/-- Settles O12. -/
theorem stepStopsOnlyOnALatchedFault : Obligations.StepStopsOnlyOnALatchedFault := by
  intro s
  rcases step_cases s with ⟨f, hf, hs⟩ | ⟨hf, -, hs⟩ | ⟨hr, -⟩
  · exact .inr ⟨f, hf, hs⟩
  · exact .inl ⟨hf, _, hs⟩
  · exact .inl ⟨hr.1, hr.step_next⟩

/-- Settles O16: both failures raise from the entered state. -/
theorem fetchAndDecodeFailuresRaise : Obligations.FetchAndDecodeFailuresRaise := by
  refine fun s hr => ⟨fun hpc => ?_, fun hi lo hhi hlo hno => ?_⟩
  · have hfirst : firstOutOfRange s.pc.toNat = if s.pc.toNat ≤ 0xFFF then s.pc.toNat + 1 else s.pc.toNat := by
      show max s.pc.toNat 4096 = _
      split <;> omega
    rw [step_of_running hr, fetchAndRun_of_outside (s := s.entered) hpc, ← hfirst]
    rfl
  · have hw := State.fetchWord_of_readByte hhi hlo
    have hd : decode (wordOfBytes hi lo) = .error (.illegalOpcode (wordOfBytes hi lo)) :=
      (decode_ne_ok_iff _).1 fun i hi' => hno i ((decodeBytes_pair hi lo i).2 hi')
    rw [step_of_running hr, fetchAndRun_of_illegal (s := s.entered) hw hd]
    rfl

/-- A step that leaves a condition latched raised it in RUNNING mode and did nothing else. -/
theorem step_of_raised {s t : State} {f : Fault} (hs : step s = .next t) (ht : t.fault = some f) :
    s.waiting = false ∧ f.pc = s.pc ∧ t = s.entered.raise f := by
  rcases step_next_cases hs with ⟨hf, -, rfl⟩ | ⟨hr, -, g, hpc, rfl⟩ | ⟨hr, -, i, -, hi⟩
  · rw [State.awaitKey_frame] at ht
    exact absurd (hf.symm.trans ht) (by simp)
  · cases ht
    exact ⟨hr.2, hpc, rfl⟩
  · rcases exec_next_cases hi with ⟨g, hpc, rfl⟩ | ⟨-, hfault⟩
    · cases ht
      exact ⟨hr.2, hpc, rfl⟩
    · exact absurd ((hfault.trans hr.1).symm.trans ht) (by simp)

theorem cycle_of_next {s t : State} (hs : step s = .next t) : cycle s = some (t, t.stepResult) := by
  simp only [cycle, hs]

/-- Settles O17. -/
theorem raisingStepIsPrecise : Obligations.RaisingStepIsPrecise := by
  refine fun s t hs => ⟨fun f hf => ?_, fun hf => ?_⟩
  · obtain ⟨hw, hpc, ht⟩ := step_of_raised hs hf
    refine ⟨hw, hpc, ht, (cycle_of_next hs).trans ?_⟩
    rw [State.stepResult, hf]
  · rw [cycle_of_next hs, State.stepResult, hf]

/-! ## The two modes -/

theorem fault_of_step_next {s t : State} (hs : step s = .next t) : s.fault = none := by
  by_contra hne
  exact step_ne_next hne t hs

theorem exec_waiting_iff {i : Instr} {s t : State} (h : exec i s = .next t) (hw : s.waiting = false) :
    t.waiting = true ↔ ∃ x, i = .waitKey x := by
  by_cases hx : ∃ x, i = .waitKey x
  · obtain ⟨x, rfl⟩ := hx
    cases h
    exact iff_of_true rfl ⟨x, rfl⟩
  · have hkeep := ((exec_frame h).wait fun x e => hx ⟨x, e⟩).1
    simp only [hkeep, hw, hx, Bool.false_eq_true]

/-- A RUNNING step that fetched an instruction is that instruction. -/
theorem exec_of_step {s t : State} {i : Instr} (hs : step s = .next t) (hw : s.waiting = false)
    (hi : s.fetched = some i) : exec i s.entered = .next t := by
  rcases step_next_cases hs with ⟨-, hw', -⟩ | ⟨-, hn, -⟩ | ⟨-, -, j, hj, h⟩
  · exact absurd (hw.symm.trans hw') (by decide)
  · exact absurd (hn.symm.trans hi) (by simp)
  · cases hj.symm.trans hi
    exact h

theorem step_waiting_iff {s t : State} (hs : step s = .next t) (hw : s.waiting = false) :
    t.waiting = true ↔ ∃ x, s.fetched = some (.waitKey x) := by
  rcases step_next_cases hs with ⟨-, hw', -⟩ | ⟨-, hn, f, -, rfl⟩ | ⟨-, -, i, hi, h⟩
  · exact absurd (hw.symm.trans hw') (by decide)
  · simp [hn, State.entered, hw]
  · rw [exec_waiting_iff h hw, hi]
    simp

/-- A key is pressed, and there is a lowest one, or none is. -/
theorem State.lowest_pressed_or_none (s : State) :
    (∃ k, s.keyAt k = true ∧ ∀ j < k, s.keyAt j = false) ∨ ∀ k, s.keyAt k = false := by
  cases h : s.firstPressed with
  | some k => exact .inl ⟨k, (s.firstPressed_some k).1 h⟩
  | none => exact .inr (s.firstPressed_none.1 h)

/-- A step in AWAITING_KEY leaves the mode exactly when a key is pressed, and whatever it does is in this frame
(40_cycle_dispatch.md R93). -/
theorem awaitingKey_step {s t : State} (hs : step s = .next t) (hw : s.waiting = true) :
    (t.waiting = false ↔ ∃ k, s.keyAt k = true) ∧ t.fault = none ∧ t.changed = false ∧
      OnlyChanges s t fun p => p = .reg s.waitReg ∨ p = .waiting ∨ p = .changed := by
  have hf := fault_of_step_next hs
  obtain ⟨hkey, hnone, -⟩ := awaitingKeyStep s hf hw
  rcases s.lowest_pressed_or_none with ⟨k, hk, hlow⟩ | hup
  · obtain ⟨u, hu, -, hwait, hch, hframe⟩ := hkey k hk hlow
    cases hu.symm.trans hs
    exact ⟨iff_of_true hwait ⟨k, hk⟩, Eq.trans (hframe .fault (by simp)) hf, hch, hframe⟩
  · obtain ⟨u, hu, hch, hframe⟩ := hnone hup
    cases hu.symm.trans hs
    have hstay : t.waiting = true := Eq.trans (hframe .waiting (by simp)) hw
    exact ⟨by simp [hstay, hup], Eq.trans (hframe .fault (by simp)) hf, hch, hframe.mono fun _ e => .inr (.inr e)⟩

/-- Settles O19. -/
theorem modeStateMachine : Obligations.ModeStateMachine := by
  refine ⟨fun s t hs => ⟨step_waiting_iff hs, fun x hw hx => ?_, fun i => exec_of_step hs, awaitingKey_step hs,
    fun k hw hk hlow => ?_, fun hw hup => ?_, fun hne => ?_⟩, fun s => step_ne_next, ⟨rfl, fun _ => rfl⟩,
    fun s bytes k => ⟨rfl, rfl, rfl, rfl⟩⟩
  · cases exec_of_step hs hw hx
    exact ⟨rfl, rfl, rfl, rfl⟩
  · obtain ⟨u, hu, hreg, -⟩ := (awaitingKeyStep s (fault_of_step_next hs) hw).1 k hk hlow
    cases hu.symm.trans hs
    exact hreg
  · obtain ⟨-, hnone, hsame⟩ := awaitingKeyStep s (fault_of_step_next hs) hw
    obtain ⟨u, hu, -, hframe⟩ := hnone hup
    cases hu.symm.trans hs
    exact ⟨hframe, fun hch => Host.Outcome.next.inj (hs.symm.trans (hsame hup hch))⟩
  · obtain ⟨f, hf⟩ := Option.ne_none_iff_exists'.1 hne
    obtain ⟨-, -, rfl⟩ := step_of_raised hs hf
    rfl

end Sys2Proof.Machine
end

section
/-! Reset, load and the host (70_reset_and_hazards.md sections 1 to 3, 60_exceptions.md sections 8 and 10). -/
namespace Sys2Proof.Machine

/-! ## Reset -/

theorem font_length : Config.font.length = 80 := rfl

/-- The reset memory reads as the font, then zeros (20_memory.md R57; log 10). -/
theorem hostReset_readByte (u : State) {a : Nat} (h : a ≤ 0xFFF) :
    u.hostReset.readByte a = some (Config.font.getD a 0) :=
  State.readByte_some _ h

/-- Settles O51: `new()` and `State.reset` are resets of the reset state. -/
theorem resetState : Obligations.ResetState := by
  refine ⟨fun s hs => ?_, fun _ => ⟨rfl, rfl⟩⟩
  obtain ⟨u, rfl⟩ : ∃ u : State, s = u.hostReset := by
    rcases hs with rfl | rfl | hu
    · exact ⟨State.reset, rfl⟩
    · exact ⟨State.reset, rfl⟩
    · exact hu
  refine ⟨fun r => ?_, rfl, rfl, rfl, fun k => ?_, rfl, rfl, font_length, fun a ha => ?_, fun a ha hle => ?_,
    fun a ha => ?_, fun r c => ?_, rfl, fun k => ?_, rfl, rfl, rfl⟩
  · exact Vector.getElem_replicate r.isLt
  · exact Vector.getElem_replicate k.isLt
  · have hlt : a < Config.font.length := ha
    rw [hostReset_readByte u (by omega), List.getD_eq_getElem _ _ hlt, List.getElem?_eq_getElem hlt]
  · rw [hostReset_readByte u hle, List.getD_eq_default _ _ ha]
  · rw [State.readByte, Memory.read_eq, if_neg (by omega)]
  · show ((Vector.replicate 32 (Vector.replicate 64 false))[r.val])[c.val] = false
    rw [Vector.getElem_replicate, Vector.getElem_replicate]
  · exact Vector.getElem_replicate k.isLt

/-! ## Load -/

/-- Settles O52: the bytes placed are the first 3584 given. -/
theorem loadPlacesTheProgram : Obligations.LoadPlacesTheProgram := by
  intro s bytes t
  have hlen : (bytes.take 3584).length = min 3584 bytes.length := List.length_take
  have hframe := OnlyChanges.putAll (.refl s fun p => ∃ k < bytes.length, k < 3584 ∧ p = .byte (0x200 + k)) 0x200
    (bytes.take 3584) fun k hk => ⟨k, by omega, by omega, rfl⟩
  refine ⟨fun k hk hk' => ?_, hframe, rfl⟩
  have hread : t.readByte (0x200 + k) = some (bytes.take 3584)[k] :=
    readByte_putAll (m := s.mem) (base := 0x200) rfl (by omega) (by omega)
  rw [hread, List.getElem_take]

/-! ## Keys -/

theorem step_key {s t : State} (hs : step s = .next t) : t.key = s.key := by
  rcases step_next_cases hs with ⟨-, -, rfl⟩ | ⟨-, -, f, -, rfl⟩ | ⟨-, -, i, -, h⟩
  · rw [State.awaitKey_frame]
    rfl
  · rfl
  · exact (exec_frame h).key

/-- Settles O53: `key` is in the frame of every instruction and every step. -/
theorem keysAreSetByTheHostOnly : Obligations.KeysAreSetByTheHostOnly := by
  refine ⟨fun s k => ⟨?_, ?_, .setKey (.refl s _) true rfl, .setKey (.refl s _) false rfl⟩,
    fun _ _ _ h => (exec_frame h).key, fun _ _ => step_key, fun k => Vector.getElem_replicate k.isLt⟩
  · rw [State.keyDown, State.setKey_keyAt, if_pos rfl]
  · rw [State.keyUp, State.setKey_keyAt, if_pos rfl]

/-! ## The host's contract -/

/-- The step has a move in every state (40_cycle_dispatch.md R91). -/
theorem exists_cycle (s : State) : ∃ t r, cycle s = some (t, r) := by
  rcases stepStopsOnlyOnALatchedFault s with ⟨-, t, hs⟩ | ⟨f, hf, -⟩
  · exact ⟨t, _, cycle_of_next hs⟩
  · exact ⟨s, _, (faultedMachineNeverMoves s f hf).2⟩

/-- Only a step ends the time for loading, and only a reset brings it back. -/
theorem Session.apply_stepped {m m' : Session} {e : HostEvent} (h : m.apply e = some m') :
    m'.stepped = true ↔ e = .step ∨ (e ≠ .reset ∧ m.stepped = true) := by
  cases e with
  | reset =>
    cases h
    simp
  | load bytes =>
    obtain ⟨-, rfl⟩ := Session.apply_load_some h
    simp
  | keyDown k =>
    obtain ⟨-, rfl⟩ := Session.apply_keyDown_some h
    simp
  | keyUp k =>
    obtain ⟨-, rfl⟩ := Session.apply_keyUp_some h
    simp
  | injectRandom bytes =>
    cases h
    simp
  | step =>
    obtain ⟨r, -, rfl⟩ := Option.map_eq_some_iff.1 h
    simp

/-- Settles O54. -/
theorem hostContractViolationsHaveNoMove : Obligations.HostContractViolationsHaveNoMove := by
  intro m k bytes
  refine ⟨?_, ?_, ?_, ⟨_, rfl, rfl⟩, ?_, ⟨_, rfl, rfl⟩, fun m' h => ?_, fun m' j hj h => ?_, fun m' j hj h => ?_,
    fun e m' => Session.apply_stepped⟩
  · simp [Session.apply]
    omega
  · simp [Session.apply]
    omega
  · simp [Session.apply]
  · obtain ⟨t, r, hc⟩ := exists_cycle m.state
    exact ⟨⟨t, true⟩, r, congrArg (Option.map _) hc, hc⟩
  · obtain ⟨-, rfl⟩ := Session.apply_load_some h
    rfl
  · subst hj
    obtain ⟨-, rfl⟩ := Session.apply_keyDown_some h
    rfl
  · subst hj
    obtain ⟨-, rfl⟩ := Session.apply_keyUp_some h
    rfl

end Sys2Proof.Machine
end

section
/-! `draw` bit by bit (44_display.md R151): the sprite as one sequence of loop bodies. -/
namespace Sys2Proof.Machine

/-- The state after the first `m` sprite bits of a sprite whose row `k` is the byte `b k`, eight bits to a row. -/
def drawSeq (x y : RegIdx) (b : Nat → Byte) (s : State) : Nat → State
  | 0 => s
  | m + 1 => drawPixel x y (m / 8) (b (m / 8)) (drawSeq x y b s m) (m % 8)

variable (x y : RegIdx) (b : Nat → Byte) (s : State)

theorem drawSeq_bit (row : Nat) {bit : Nat} (h : bit < 8) : drawSeq x y b s (8 * row + bit + 1) =
    drawPixel x y row (b row) (drawSeq x y b s (8 * row + bit)) bit := by
  have hrow : (8 * row + bit) / 8 = row := by omega
  have hbit : (8 * row + bit) % 8 = bit := by omega
  rw [drawSeq, hrow, hbit]

theorem drawSeq_row (row : Nat) : drawRow x y row (b row) (drawSeq x y b s (8 * row)) =
    drawSeq x y b s (8 * (row + 1)) := by
  have hbits : ∀ n ≤ 8, (List.range n).foldl (drawPixel x y row (b row)) (drawSeq x y b s (8 * row)) =
      drawSeq x y b s (8 * row + n) := by
    intro n hn
    induction n with
    | zero => rfl
    | succ n ih =>
      rw [List.range_succ, List.foldl_append, ih (by omega), ← Nat.add_assoc, drawSeq_bit _ _ _ _ _ (by omega)]
      rfl
  exact hbits 8 (le_refl 8)

/-- Drawing rows continues the sequence, whatever row it starts from. -/
theorem drawRows_drawSeq (bs : List Byte) (row : Nat) (hb : ∀ k (h : k < bs.length), bs[k] = b (row + k)) :
    drawRows x y row bs (drawSeq x y b s (8 * row)) = drawSeq x y b s (8 * (row + bs.length)) := by
  induction bs generalizing row with
  | nil => rfl
  | cons c bs ih =>
    have hc : c = b row := hb 0 (Nat.succ_pos _)
    have htail : ∀ k (h : k < bs.length), bs[k] = b (row + 1 + k) := by
      intro k h
      have hk := hb (k + 1) (Nat.succ_lt_succ h)
      rwa [List.getElem_cons_succ, show row + (k + 1) = row + 1 + k by omega] at hk
    rw [drawRows, hc, drawSeq_row, ih (row + 1) htail, List.length_cons,
      show row + 1 + bs.length = row + (bs.length + 1) by omega]

theorem drawSeq_reg {q : RegIdx} (hq : q ≠ 15) (m : Nat) : (drawSeq x y b s m).reg q = s.reg q := by
  induction m with
  | zero => rfl
  | succ m ih => rw [drawSeq, drawPixel, State.setPixel_reg, State.orFlag_reg, if_neg hq, ih]

theorem landsOn_iff {vx vy : Byte} {row bit : Nat} {r : Fin 32} {c : Fin 64} :
    LandsOn vx vy row bit r c ↔ r = rowOf vy row ∧ c = column vx bit := by
  rw [Fin.ext_iff, Fin.ext_iff]
  exact Iff.rfl

/-! ## The loop body -/

/-- The loop body at the pixel the bit lands on: the collision, the XOR and the other pixels. -/
theorem drawPixel_body (row : Nat) (c8 : Byte) (bit : Nat) {r : Fin 32} {c : Fin 64}
    (h : LandsOn (s.reg x) (s.reg y) row bit r c) :
    (drawPixel x y row c8 s bit).reg 15 =
        (if c8.getLsbD (7 - bit) = true ∧ s.pixel r c = true then s.reg 15 ||| 1 else s.reg 15) ∧
      (drawPixel x y row c8 s bit).pixel r c = (s.pixel r c ^^ c8.getLsbD (7 - bit)) ∧
      ∀ r' c', ¬ (r' = r ∧ c' = c) → (drawPixel x y row c8 s bit).pixel r' c' = s.pixel r' c' := by
  obtain ⟨rfl, rfl⟩ := landsOn_iff.1 h
  refine ⟨?_, ?_, fun r' c' hne => ?_⟩
  · rw [drawPixel, State.setPixel_reg, State.orFlag_reg, if_pos rfl, spriteBit]
    by_cases hhit : c8.getLsbD (7 - bit) = true ∧ s.pixel (rowOf (s.reg y) row) (column (s.reg x) bit) = true
    · rw [if_pos hhit, hhit.1, hhit.2]
      rfl
    · rw [if_neg hhit, Bool.eq_false_iff.2 fun e => hhit (Bool.and_eq_true _ _ ▸ e), flagByte_false]
      exact BitVec.or_zero
  · rw [drawPixel, State.setPixel_pixel, if_pos ⟨rfl, rfl⟩, spriteBit]
  · rw [drawPixel, State.setPixel_pixel, if_neg hne, State.orFlag_pixel]

/-- The sprite of `draw` is the sequence of its `8 n` bits. -/
theorem drawRows_getAll (n : Nat) : drawRows x y 0 (s.mem.getAll s.i.toNat n) (s.setFlag false) =
    drawSeq x y (fun row => s.mem.get (s.i.toNat + row)) (s.setFlag false) (8 * n) := by
  have hseq := drawRows_drawSeq x y (fun row => s.mem.get (s.i.toNat + row)) (s.setFlag false)
    (s.mem.getAll s.i.toNat n) 0 fun k hk => by rw [Memory.getAll_getElem, Nat.zero_add]
  rwa [Memory.getAll_length, Nat.zero_add] at hseq

/-- A position register read in the sequence: the live `VF`, or the register as it was before the draw. -/
theorem drawSeq_position (m : Nat) (q : RegIdx) :
    (if q = 15 then (drawSeq x y b (s.setFlag false) m).reg 15 else s.reg q) =
      (drawSeq x y b (s.setFlag false) m).reg q := by
  by_cases hq : q = 15
  · rw [if_pos hq, hq]
  · rw [if_neg hq, drawSeq_reg _ _ _ _ hq, State.setFlag_reg, if_neg hq]

/-- The frame of `draw`. -/
theorem draw_frame (bs : List Byte) :
    OnlyChanges s ((drawRows x y 0 bs (s.setFlag false)).setChanged true).advance
      fun p => p = .pc ∨ p = .changed ∨ p = .reg 15 ∨ ∃ r c, p = .pixel r c :=
  .advance (.setChanged (.drawRows (.setFlag (.refl s _) false (.inr (.inr (.inl rfl)))) x y 0 bs
    (.inr (.inr (.inl rfl))) fun r c => .inr (.inr (.inr ⟨r, c, rfl⟩))) true (.inr (.inl rfl))) (.inl rfl)

theorem draw_pc (bs : List Byte) :
    ((drawRows x y 0 bs (s.setFlag false)).setChanged true).advance.pc = s.pc + 2 := by
  rw [drawRows_frame]
  rfl

/-- Settles O43: the sequences are the flag and the display of `drawSeq`. -/
theorem drawRunsBitByBit : Obligations.DrawRunsBitByBit := by
  intro s x y n hin
  let seq := drawSeq x y (fun row => s.mem.get (s.i.toNat + row)) (s.setFlag false)
  have hlast : drawRows x y 0 (s.mem.getAll s.i.toNat n) (s.setFlag false) = seq (8 * n) := drawRows_getAll x y s n
  refine ⟨_, fun m => (seq m).reg 15, fun m => (seq m).pixel, exec_draw_of_inside x y hin,
    (s.setFlag_reg false 15).trans (if_pos rfl), rfl,
    fun row hrow bit hbit => ⟨_, State.readByte_some s (by omega), ?_⟩, ?_, fun r c => ?_, rfl, draw_pc x y s _,
    draw_frame x y s _⟩
  · intro m vx vy sb r c hlands
    have hnext : seq (m + 1) = drawPixel x y row _ (seq m) bit := drawSeq_bit _ _ _ _ row hbit
    have hvx : vx = (seq m).reg x := drawSeq_position _ _ _ _ m x
    have hvy : vy = (seq m).reg y := drawSeq_position _ _ _ _ m y
    rw [hvx, hvy] at hlands
    simp only [hnext]
    exact drawPixel_body x y (seq m) row _ bit hlands
  · rw [State.advance_reg, State.setChanged_reg, hlast]
  · rw [State.advance_pixel, State.setChanged_pixel, hlast]

end Sys2Proof.Machine
end

section
/-! `draw` with position registers other than `VF` (44_display.md R151, consequences (a) and (c)): the closed form of
the engine, read as set sprite bits that land on pixels. -/
namespace Sys2Proof.Machine

/-- The bit of the sprite of `draw x,y,n` that lands on a pixel, false where none does. -/
def State.sprite (s : State) (x y : RegIdx) (n : Nat) (r : Fin 32) (c : Fin 64) : Bool :=
  spriteAt (s.reg x) (s.reg y) 0 (s.mem.getAll s.i.toNat n) r c

section
variable {s : State} {x y : RegIdx} {n : Nat} (hn : n < 16) (hin : n = 0 ∨ s.i.toNat + (n - 1) ≤ 0xFFF)
include hn hin

/-- At most one sprite bit lands on a pixel: a sprite has at most 15 rows of 8 bits. -/
theorem State.sprite_of_landsOn {row bit : Nat} (hrow : row < n) (hbit : bit < 8) {r : Fin 32} {c : Fin 64}
    (h : LandsOn (s.reg x) (s.reg y) row bit r c) : s.sprite x y n r c = true ↔ s.SpriteSet row bit := by
  obtain ⟨hr, hc⟩ := landsOn_iff.1 h
  have hro := (rowOf_eq_iff _ _ _ (by omega)).1 hr
  have hco := (column_eq_iff _ _ _ (by omega)).1 hc
  have hget : (s.mem.getAll s.i.toNat n)[row]? = some (s.mem.get (s.i.toNat + row)) := by
    rw [List.getElem?_eq_getElem (by rw [Memory.getAll_length]; exact hrow), Memory.getAll_getElem]
  have hread : s.readByte (s.i.toNat + row) = some (s.mem.get (s.i.toNat + row)) := s.readByte_some (by omega)
  simp [State.sprite, spriteAt, State.SpriteSet, spriteBit, hro, hco, hbit, hget, hread]

theorem State.sprite_iff (r : Fin 32) (c : Fin 64) : s.sprite x y n r c = true ↔
    ∃ row < n, ∃ bit < 8, LandsOn (s.reg x) (s.reg y) row bit r c ∧ s.SpriteSet row bit := by
  constructor
  · intro h
    have h' := h
    simp only [State.sprite, spriteAt, Nat.sub_zero, Bool.and_eq_true, decide_eq_true_eq, Option.any_eq_true] at h'
    obtain ⟨⟨-, hbit⟩, b, hb, -⟩ := h'
    obtain ⟨hrow, -⟩ := List.getElem?_eq_some_iff.1 hb
    rw [Memory.getAll_length] at hrow
    have hlands : LandsOn (s.reg x) (s.reg y) (rowOffset (s.reg y) r) (colOffset (s.reg x) c) r c :=
      landsOn_iff.2 ⟨(rowOf_eq_iff _ _ _ (by omega)).2 rfl, (column_eq_iff _ _ _ (by omega)).2 rfl⟩
    exact ⟨_, hrow, _, hbit, hlands, (State.sprite_of_landsOn hn hin hrow hbit hlands).1 h⟩
  · rintro ⟨row, hrow, bit, hbit, hlands, hset⟩
    exact (State.sprite_of_landsOn hn hin hrow hbit hlands).2 hset

/-- A pixel with a property under a set sprite bit, found by pixel or by bit. -/
theorem State.sprite_hit_iff (lit : Fin 32 → Fin 64 → Bool) :
    (∃ r c, s.sprite x y n r c = true ∧ lit r c = true) ↔
      ∃ row < n, ∃ bit < 8, ∃ r c, LandsOn (s.reg x) (s.reg y) row bit r c ∧ s.SpriteSet row bit ∧ lit r c = true := by
  constructor
  · rintro ⟨r, c, hs, hp⟩
    obtain ⟨row, hrow, bit, hbit, hlands, hset⟩ := (State.sprite_iff hn hin r c).1 hs
    exact ⟨row, hrow, bit, hbit, r, c, hlands, hset, hp⟩
  · rintro ⟨row, hrow, bit, hbit, r, c, hlands, hset, hp⟩
    exact ⟨r, c, (State.sprite_iff hn hin r c).2 ⟨row, hrow, bit, hbit, hlands, hset⟩, hp⟩

/-- What a completed `draw` leaves: the sprite XORed into the display, the collision in `VF`, and everything a second
draw reads as it was. -/
theorem exec_draw_sprite (hx : x ≠ 15) (hy : y ≠ 15) : ∃ t, exec (.draw x y n) s = .next t ∧
    (∀ r c, t.pixel r c = (s.pixel r c ^^ s.sprite x y n r c)) ∧
    t.reg 15 = flagByte (decide (∃ r c, s.sprite x y n r c = true ∧ s.pixel r c = true)) ∧
    t.changed = true ∧ t.pc = s.pc + 2 ∧ t.i = s.i ∧ t.mem = s.mem ∧ ∀ q, q ≠ 15 → t.reg q = s.reg q := by
  have hlen : 0 + (s.mem.getAll s.i.toNat n).length ≤ 32 := by
    rw [Memory.getAll_length]
    omega
  have hreg : ∀ q, q ≠ 15 → (s.setFlag false).reg q = s.reg q := fun q hq => by rw [State.setFlag_reg, if_neg hq]
  refine ⟨_, exec_draw_of_inside x y hin, fun r c => ?_, ?_, rfl, draw_pc x y s _, ?_, ?_, fun q hq => ?_⟩
  · rw [State.advance_pixel, State.setChanged_pixel, drawRows_pixel hx hy _ _ hlen, hreg x hx, hreg y hy]
    rfl
  · rw [State.advance_reg, State.setChanged_reg, drawRows_flag hx hy _ _ hlen, hreg x hx, hreg y hy, State.setFlag_reg,
      if_pos rfl, flagByte_false]
    exact BitVec.zero_or
  · rw [drawRows_frame]
    rfl
  · rw [drawRows_frame]
    rfl
  · rw [State.advance_reg, State.setChanged_reg, drawRows_reg _ _ _ _ _ _ hq, hreg q hq]

end

theorem flagByte_eq_one_iff (b : Bool) : flagByte b = 1 ↔ b = true := by
  cases b <;> decide

/-- Settles O44. -/
theorem drawXorsTheSprite : Obligations.DrawXorsTheSprite := by
  intro s x y n hx hy hn hin
  obtain ⟨t, ht, hpixel, hflag, hchanged, hpc, hi, -, -⟩ := exec_draw_sprite hn hin hx hy
  refine ⟨t, ht, fun row hrow bit hbit r c hlands => ?_, fun r c hno => ?_, ?_, ?_, hchanged, hpc, hi⟩
  · rw [hpixel, ← State.sprite_of_landsOn hn hin hrow hbit hlands]
    cases s.sprite x y n r c <;> simp
  · have hclear : s.sprite x y n r c = false := Bool.eq_false_iff.2 fun hs => by
      obtain ⟨row, hrow, bit, hbit, hlands, -⟩ := (State.sprite_iff hn hin r c).1 hs
      exact hno row hrow bit hbit hlands
    rw [hpixel, hclear, Bool.xor_false]
  · rw [hflag]
    cases decide (∃ r c, s.sprite x y n r c = true ∧ s.pixel r c = true) <;> simp
  · rw [hflag, flagByte_eq_one_iff, decide_eq_true_iff, State.sprite_hit_iff hn hin]

/-- Settles O45: the second draw finds the same sprite, and XOR with it twice is the identity. -/
theorem drawTwiceRestoresTheDisplay : Obligations.DrawTwiceRestoresTheDisplay := by
  intro s x y n hx hy hn hin
  obtain ⟨t, ht, hpixel, -, -, -, hi, hmem, hreg⟩ := exec_draw_sprite hn hin hx hy
  have hin' : n = 0 ∨ t.i.toNat + (n - 1) ≤ 0xFFF := by rwa [hi]
  obtain ⟨u, hu, hpixel', hflag', -⟩ := exec_draw_sprite hn hin' hx hy
  have hsprite : t.sprite x y n = s.sprite x y n := by
    unfold State.sprite
    rw [hreg x hx, hreg y hy, hi, hmem]
  refine ⟨t, u, ht, hu, fun r c => ?_, ?_⟩
  · rw [hpixel', hsprite, hpixel, Bool.xor_assoc, Bool.xor_self, Bool.xor_false]
  · rw [hflag', flagByte_eq_one_iff, decide_eq_true_iff, hsprite, State.sprite_hit_iff hn hin]

end Sys2Proof.Machine
end
